-- ==== Sys2Proof/Word.lean ====
section
/-! DEFINITION. The widths of the AnPU Nano core (rule R3 of `00_scope.md`) as types, and nothing else. -/

namespace Sys2Proof

/-- A general register, a RAM cell, an input or an output port latch: 8 bits (`XLEN`, rule R3). -/
abbrev Byte := BitVec 8

/-- An instruction word and a ROM word: 16 bits (`ILEN`, rule R3). -/
abbrev Word := BitVec 16

/-- The program counter: 6 bits (`PCLEN`, rule R3; rule R25). -/
abbrev RomIndex := BitVec 6

end Sys2Proof
end

