-- ==== Sys2Proof/Config.lean ====
section
/-! DEFINITION. What the spec leaves to a parameter (rule R4 of `00_scope.md`), with the spec's defaults, and the
free values: constants without a body for what the spec leaves at "any value". -/

namespace Sys2Proof

/-- `TWO_NIBBLE_LAYOUT` (rule R95, decision D3; log 1): where the second 4-bit operand of LDP, STP and BRP lies.
`packedHigh` is bits 7 to 4, `low` is bits 3 to 0. -/
inductive TwoNibbleLayout where
  | packedHigh
  | low
  deriving DecidableEq, Repr

/-- `SETUP_CYCLE` (rule R124, decision D10; log 2): what a `cycle` event issued in Setup does. -/
inductive SetupCycle where
  | refuse
  | execute
  deriving DecidableEq, Repr

/-- The three named parameters of rule R4. `cntWidth = none` is the unbounded counter; `some k` keeps `icount`
modulo `2^k` (rule R38, decision D12; log 3). -/
structure Config where
  twoNibbleLayout : TwoNibbleLayout
  setupCycle : SetupCycle
  cntWidth : Option Nat
  deriving DecidableEq, Repr

/-- The spec's default for each parameter (rule R4). -/
def Config.default : Config :=
  { twoNibbleLayout := .packedHigh, setupCycle := .refuse, cntWidth := none }

/-- FREE VALUE (log 8). "How many trace entries a `load` pushes, and their text, is unspecified" (rule R291): how many
entries beyond those rules R286 to R289 name are pushed at the n-th such point. -/
opaque Config.extraLoadEntries : Nat → Nat

/-- FREE VALUE (log 9). `trim` removes white space, "at least space, horizontal tab and carriage return" (rule R291):
whether it removes another white space character too. -/
opaque Config.trimsOtherSpace : Char → Bool

end Sys2Proof
end

