-- ==== Sys2Proof/Syntax.lean ====
section
/-! DEFINITION. The instructions: one constructor per row of `spec/opcode_table.json` (rule R100 of `30_encoding.md`).
Operands are the natural numbers of the rules' pseudocode, in the order of rule R100's "operands in assembly order";
`WellFormed.lean` says which values a field can hold (log 16). -/

namespace Sys2Proof

inductive Instr where
  /-- HALT, opcode 0x0, format N (rule R125). -/
  | halt
  /-- ADD, opcode 0x1, format R3 (rule R146). -/
  | add (dest a b : Nat)
  /-- SUB, opcode 0x2, format R3 (rule R147). -/
  | sub (dest a b : Nat)
  /-- AND, opcode 0x3, format R3 (rule R148). -/
  | and (dest a b : Nat)
  /-- NOR, opcode 0x4, format R3 (rule R149). -/
  | nor (dest a b : Nat)
  /-- XOR, opcode 0x5, format R3 (rule R150). -/
  | xor (dest a b : Nat)
  /-- RSH, opcode 0x6, format R2 (rule R151). -/
  | rsh (dest a : Nat)
  /-- CMP, opcode 0x7, format C (rule R172). -/
  | cmp (a b : Nat)
  /-- LDI, opcode 0x8, format I (rule R180). -/
  | ldi (dest imm : Nat)
  /-- LDM, opcode 0x9, format I (rule R181). -/
  | ldm (dest addr : Nat)
  /-- STM, opcode 0xA, format I (rule R182). -/
  | stm (src addr : Nat)
  /-- LDP, opcode 0xB, format R2 (rule R183). -/
  | ldp (dest ptr : Nat)
  /-- STP, opcode 0xC, format R2 (rule R184): the pointer comes first. -/
  | stp (ptr src : Nat)
  /-- BRC, opcode 0xD, format I (rule R200). -/
  | brc (cond addr : Nat)
  /-- BRP, opcode 0xE, format R2 (rule R201). -/
  | brp (cond ptr : Nat)
  /-- JMP, opcode 0xF, format J (rule R202). -/
  | jmp (addr : Nat)
  deriving DecidableEq, Repr

end Sys2Proof
end

