-- ==== Sys2Proof/WellFormed.lean ====
section
/-! DEFINITION. Which terms are instructions of this hardware: every operand fits its field (the ranges of the slices
in rule R91; the formats in rules R93 to R98). A register field is any 4-bit value: its reduction modulo 8 is the
register file's own (rule R92), so r9 is a second name of r1 and is well formed. -/

namespace Sys2Proof

/-- A 4-bit operand: `dest`, `a`, `b`, `src`, `ptr`, `cond` (rule R91: 0..15). -/
def fitsNibble (n : Nat) : Bool := decide (n < 16)

/-- An 8-bit operand: `imm`, or `addr` of LDM, STM, BRC (rule R91: 0..255). -/
def fitsImm8 (n : Nat) : Bool := decide (n < 256)

/-- The 12-bit operand of JMP (rule R91: 0..4095). -/
def fitsAddr12 (n : Nat) : Bool := decide (n < 4096)

/-- Every operand fits its field. -/
def Instr.wf : Instr → Bool
  | .halt => true
  | .add d a b => fitsNibble d && fitsNibble a && fitsNibble b
  | .sub d a b => fitsNibble d && fitsNibble a && fitsNibble b
  | .and d a b => fitsNibble d && fitsNibble a && fitsNibble b
  | .nor d a b => fitsNibble d && fitsNibble a && fitsNibble b
  | .xor d a b => fitsNibble d && fitsNibble a && fitsNibble b
  | .rsh d a => fitsNibble d && fitsNibble a
  | .cmp a b => fitsNibble a && fitsNibble b
  | .ldi d imm => fitsNibble d && fitsImm8 imm
  | .ldm d addr => fitsNibble d && fitsImm8 addr
  | .stm src addr => fitsNibble src && fitsImm8 addr
  | .ldp d p => fitsNibble d && fitsNibble p
  | .stp p src => fitsNibble p && fitsNibble src
  | .brc c addr => fitsNibble c && fitsImm8 addr
  | .brp c p => fitsNibble c && fitsNibble p
  | .jmp addr => fitsAddr12 addr

end Sys2Proof
end

