-- ==== Sys2Proof/Decode.lean ====
section
/-! DEFINITION. Decoding a 16-bit word and encoding an instruction, both from the formats of rules R91 to R98 and the
opcode map of rule R100. Decoding is total and has no rejection: "all 16 values are defined, so decode never fails"
(rules R100, R101, R103, R104). -/

namespace Sys2Proof

/-- `v[hi:lo] = (v div 2^lo) mod 2^(hi-lo+1)` (`00_scope.md` section 5.1). -/
def slice (w : Word) (hi lo : Nat) : Nat := w.toNat / 2 ^ lo % 2 ^ (hi - lo + 1)

/-- The sixteen opcodes of rule R100, in its order. -/
inductive Opcode where
  | halt | add | sub | and | nor | xor | rsh | cmp | ldi | ldm | stm | ldp | stp | brc | brp | jmp
  deriving DecidableEq, Repr

/-- The opcode's value, the second column of rule R100. -/
def Opcode.number : Opcode → Nat
  | .halt => 0x0
  | .add => 0x1
  | .sub => 0x2
  | .and => 0x3
  | .nor => 0x4
  | .xor => 0x5
  | .rsh => 0x6
  | .cmp => 0x7
  | .ldi => 0x8
  | .ldm => 0x9
  | .stm => 0xA
  | .ldp => 0xB
  | .stp => 0xC
  | .brc => 0xD
  | .brp => 0xE
  | .jmp => 0xF

/-- `op = w[15:12]`, read bit by bit as rule R100's first column prints it. -/
def opcodeOf (w : Word) : Opcode :=
  match w.getLsbD 15, w.getLsbD 14, w.getLsbD 13, w.getLsbD 12 with
  | false, false, false, false => .halt
  | false, false, false, true => .add
  | false, false, true, false => .sub
  | false, false, true, true => .and
  | false, true, false, false => .nor
  | false, true, false, true => .xor
  | false, true, true, false => .rsh
  | false, true, true, true => .cmp
  | true, false, false, false => .ldi
  | true, false, false, true => .ldm
  | true, false, true, false => .stm
  | true, false, true, true => .ldp
  | true, true, false, false => .stp
  | true, true, false, true => .brc
  | true, true, true, false => .brp
  | true, true, true, true => .jmp

/-- `f11_8` (rule R91). -/
def f11_8 (w : Word) : Nat := slice w 11 8

/-- `f7_4` (rule R91). -/
def f7_4 (w : Word) : Nat := slice w 7 4

/-- `f3_0` (rule R91). -/
def f3_0 (w : Word) : Nat := slice w 3 0

/-- `imm8` (rule R91). -/
def imm8 (w : Word) : Nat := slice w 7 0

/-- `addr12` (rule R91). -/
def addr12 (w : Word) : Nat := slice w 11 0

/-- The second 4-bit operand of LDP, STP and BRP under each layout (rule R95; log 1). RSH does not go through here:
the source itself places its `a`. -/
def secondNibble (l : TwoNibbleLayout) (w : Word) : Nat :=
  match l with
  | .packedHigh => f7_4 w
  | .low => f3_0 w

/-- The instruction a word is (rules R93 to R98, R100). -/
def decodeWith (l : TwoNibbleLayout) (w : Word) : Instr :=
  match opcodeOf w with
  | .halt => .halt
  | .add => .add (f11_8 w) (f7_4 w) (f3_0 w)
  | .sub => .sub (f11_8 w) (f7_4 w) (f3_0 w)
  | .and => .and (f11_8 w) (f7_4 w) (f3_0 w)
  | .nor => .nor (f11_8 w) (f7_4 w) (f3_0 w)
  | .xor => .xor (f11_8 w) (f7_4 w) (f3_0 w)
  | .rsh => .rsh (f11_8 w) (f7_4 w)
  | .cmp => .cmp (f7_4 w) (f3_0 w)
  | .ldi => .ldi (f11_8 w) (imm8 w)
  | .ldm => .ldm (f11_8 w) (imm8 w)
  | .stm => .stm (f11_8 w) (imm8 w)
  | .ldp => .ldp (f11_8 w) (secondNibble l w)
  | .stp => .stp (f11_8 w) (secondNibble l w)
  | .brc => .brc (f11_8 w) (imm8 w)
  | .brp => .brp (f11_8 w) (secondNibble l w)
  | .jmp => .jmp (addr12 w)

/-- Decoding under the spec's default layout. -/
def decode (w : Word) : Instr := decodeWith Config.default.twoNibbleLayout w

/-- An instruction whose table bits are `w` (bit 0 the least significant of its one word). Every instruction is one
16-bit word (rule R90), so a longer table entry is none of this hardware's. -/
def decodeTableWord (nbits w : Nat) : Option Instr :=
  if nbits ≤ 16 then some (decode (BitVec.ofNat 16 (w % 2 ^ nbits))) else none

/-- The opcode of an instruction (rule R100). -/
def Instr.opcode : Instr → Opcode
  | .halt => .halt
  | .add _ _ _ => .add
  | .sub _ _ _ => .sub
  | .and _ _ _ => .and
  | .nor _ _ _ => .nor
  | .xor _ _ _ => .xor
  | .rsh _ _ => .rsh
  | .cmp _ _ => .cmp
  | .ldi _ _ => .ldi
  | .ldm _ _ => .ldm
  | .stm _ _ => .stm
  | .ldp _ _ => .ldp
  | .stp _ _ => .stp
  | .brc _ _ => .brc
  | .brp _ _ => .brp
  | .jmp _ => .jmp

/-- Where the second 4-bit operand of LDP, STP and BRP is written, as a value of the word (rule R95; log 1). -/
def placeSecond (l : TwoNibbleLayout) (n : Nat) : Nat :=
  match l with
  | .packedHigh => n * 2 ^ 4
  | .low => n

/-- The twelve bits below the opcode (rules R93 to R98); ignored bits are written 0 (rule R102, decision D18). -/
def operandBits (l : TwoNibbleLayout) : Instr → Nat
  | .halt => 0
  | .add d a b => d * 2 ^ 8 + a * 2 ^ 4 + b
  | .sub d a b => d * 2 ^ 8 + a * 2 ^ 4 + b
  | .and d a b => d * 2 ^ 8 + a * 2 ^ 4 + b
  | .nor d a b => d * 2 ^ 8 + a * 2 ^ 4 + b
  | .xor d a b => d * 2 ^ 8 + a * 2 ^ 4 + b
  | .rsh d a => d * 2 ^ 8 + a * 2 ^ 4
  | .cmp a b => a * 2 ^ 4 + b
  | .ldi d imm => d * 2 ^ 8 + imm
  | .ldm d addr => d * 2 ^ 8 + addr
  | .stm src addr => src * 2 ^ 8 + addr
  | .ldp d p => d * 2 ^ 8 + placeSecond l p
  | .stp p src => p * 2 ^ 8 + placeSecond l src
  | .brc c addr => c * 2 ^ 8 + addr
  | .brp c p => c * 2 ^ 8 + placeSecond l p
  | .jmp addr => addr

/-- The word of a well-formed instruction (rule R100). -/
def encodeWith (l : TwoNibbleLayout) (i : Instr) : Word :=
  BitVec.ofNat 16 (i.opcode.number * 2 ^ 12 + operandBits l i)

/-- Encoding under the spec's default layout. -/
def encode (i : Instr) : Word := encodeWith Config.default.twoNibbleLayout i

end Sys2Proof
end

