-- ==== Sys2Proof/Machine/State.lean ====
section
/-! DEFINITION. The state of the block as plain data: the ten components of rule R20 of `10_state.md`, the optional
eleventh (the last-touched indices of rule R44), and two fields of the MODEL's own (the host's events not yet performed,
and the counter of free choices). -/

namespace Sys2Proof.Machine

/-- Why a step could end in a fault: never. "The machine raises no synchronous exception, for any instruction word in
any state ... it has no fault outcome" (rule R220), so the type has no constructor. -/
inductive Fault where
  deriving DecidableEq, Repr

/-- Why a step is given no meaning. -/
inductive Refusal where
  /-- Raised by `exec` for an instruction without a meaning. No arm of this model raises it. Safe. -/
  | notModelled (mnemonic : String)
  /-- Raised by the cycle when `mode = Setup` and `SETUP_CYCLE = refuse`: "This spec gives such an event no meaning: a
  model refuses it" (rule R124, decision D10; log 2). Safe. -/
  | cycleInSetup
  /-- Raised by a `load` event when `mode` is ManualStep or Automatic (rule R238, decision D11; log 14). Safe. -/
  | loadOutsideSetup
  deriving DecidableEq, Repr

/-- The run state of the engine (rule R35). Automatic carries no rate (rule R36, decision D13; log 24). -/
inductive Mode where
  | setup
  | manualStep
  | automatic
  deriving DecidableEq, Repr

/-- An entry of the trace log, named by what the spec says it reports. The text of an entry is in no source and is not
modelled (rule R42, decision D14; log 6): an equality of entries here says nothing about an equality of texts. -/
inductive TraceEntry where
  /-- One of the seven entries at power-on, whose content is unspecified (rule R46; log 7). -/
  | powerOn (position : Nat)
  /-- The entry a cycle pushes, "describing the instruction" (rule R120). -/
  | executed (i : Instr)
  /-- The entry a reset pushes, recording `icount` before the reset (rule R270). -/
  | priorCount (n : Nat)
  /-- "A successful load logs the source identifier" (rules R286, R289). -/
  | romLoaded
  /-- A malformed ROM line was met (rules R286, R287). -/
  | romCorrupt
  /-- "program not found": the ROM source is missing (rule R287). -/
  | programNotFound
  /-- A malformed RAM line was met: "RAM parse failure ... is logged" (rule R289). -/
  | ramCorrupt
  /-- Any other entry a `load` pushes; how many is a free value (rule R291; log 8). -/
  | loadReport
  deriving DecidableEq, Repr

/-- The seven events of rule R6. The texts of `load` are lists of characters; `none` is a missing source (rule R285). -/
inductive HostEvent where
  | load (rom ram : Option (List Char))
  | fullReset
  | programReset
  | requestManualMode
  | requestAutomaticMode
  | requestStep
  | cycle
  deriving DecidableEq, Repr

/-- For each store, the wrapped index last read or written by a cycle, or none (rule R44; log 10). -/
structure LastTouched where
  rom : Option Nat
  ram : Option Nat
  x : Option Nat
  flag : Option Nat
  inPort : Option Nat
  outPort : Option Nat
  deriving DecidableEq, Repr

/-- No store touched since the last reset (rule R46). -/
def LastTouched.none : LastTouched := ⟨.none, .none, .none, .none, .none, .none⟩

/-- A memory of `w`-bit cells: pairs of address and cell, in the canonical form `Memory.wf`. An address that is not
listed reads as 0, which is what every cell holds after reset (rule R46; log 15). -/
abbrev Memory (w : Nat) := List (Nat × BitVec w)

/-- The addresses rise strictly from `lo` on, all below `size`, and no cell listed holds 0. -/
def Memory.wfFrom {w : Nat} (size lo : Nat) : Memory w → Bool
  | [] => true
  | (a, v) :: rest => decide (lo ≤ a) && decide (a < size) && v != 0 && Memory.wfFrom size (a + 1) rest

/-- The canonical form of a memory of `size` cells: equal contents are equal data. -/
def Memory.wf {w : Nat} (size : Nat) (m : Memory w) : Bool := Memory.wfFrom size 0 m

/-- The instruction store: 64 words of 16 bits (rule R60). Its addressable unit is the word (rules R28, R71). -/
abbrev Rom := Memory 16

/-- The data store: 32 cells of 8 bits (rule R61). -/
abbrev Ram := List Host.Cell

/-- The state of the block. -/
@[ext]
structure State where
  /-- The instruction store (rule R60). -/
  rom : Rom
  /-- The data store (rule R61). -/
  ram : Ram
  /-- The general registers r0 to r7 (rule R21). -/
  x : Vector Byte 8
  /-- The input port latches (rule R40). -/
  inPort : Vector Byte 8
  /-- The output port latches (rule R40). -/
  outPort : Vector Byte 8
  /-- The sixteen flags, each stored by itself (rules R30, R34). -/
  flag : Vector Bool 16
  /-- The program counter (rule R25). -/
  pc : RomIndex
  /-- The run state (rule R35). -/
  mode : Mode
  /-- The trace log: exactly seven entries, newest last (rule R42). -/
  trace : Vector TraceEntry 7
  /-- The executed-instruction counter (rule R38). -/
  icount : Nat
  /-- The last-touched indices (rule R44; log 10). -/
  last : LastTouched
  /-- MODEL's own (log 4): the host's events not yet performed, first one first. When it is empty the host issues
  `cycle`. -/
  pending : List HostEvent
  /-- MODEL's own (log 8): how many free choices have been taken, the argument of the next one. -/
  freeIdx : Nat
  deriving DecidableEq, Repr

/-- Flags 0 to 14 false, flag 15 true (rule R46). -/
def resetFlags : Vector Bool 16 :=
  #v[false, false, false, false, false, false, false, false, false, false, false, false, false, false, false, true]

/-- The machine at power-on: the state `full_reset` produces, with `icount = 0` and a trace log of seven entries of
unspecified content (rules R46, R272, decision D15; logs 7 and 11). Nothing is pending and no free choice taken. -/
def State.reset : State where
  rom := []
  ram := []
  x := Vector.replicate 8 0
  inPort := Vector.replicate 8 0
  outPort := Vector.replicate 8 0
  flag := resetFlags
  pc := 0
  mode := .setup
  trace := #v[.powerOn 0, .powerOn 1, .powerOn 2, .powerOn 3, .powerOn 4, .powerOn 5, .powerOn 6]
  icount := 0
  last := LastTouched.none
  pending := []
  freeIdx := 0

end Sys2Proof.Machine
end

