-- ==== Sys2Proof/Machine/Ops.lean ====
section
/-! DEFINITION. The named operations over the stores, each reduced as rule R66 (index wrap) and rule R67 (truncation)
say, and the operations on the pc, the mode, the trace log and the counter. There is no operation for taking an
exception or returning from one: the machine has neither (rules R220, R222, R225). -/

namespace Sys2Proof.Machine

/-- The cell at an address; 0 where none is listed (rule R46). -/
def Memory.read {w : Nat} (m : Memory w) (a : Nat) : BitVec w :=
  match m with
  | [] => 0
  | (k, v) :: rest => if k = a then v else Memory.read rest a

/-- Replace the cell at an address, keeping the canonical form: a cell that becomes 0 is no longer listed. -/
def Memory.write {w : Nat} (m : Memory w) (a : Nat) (v : BitVec w) : Memory w :=
  match m with
  | [] => if v = 0 then [] else [(a, v)]
  | (k, u) :: rest =>
    if a < k then (if v = 0 then (k, u) :: rest else (a, v) :: (k, u) :: rest)
    else if a = k then (if v = 0 then rest else (a, v) :: rest)
    else (k, u) :: Memory.write rest a v

/-- `RomRead(i)` (rule R62). -/
def romRead (s : State) (i : Nat) : Word := Memory.read s.rom (i % 64)

/-- `RomWrite(i, v)` (rule R63). -/
def romWrite (s : State) (i v : Nat) : State :=
  { s with rom := Memory.write s.rom (i % 64) (BitVec.ofNat 16 v) }

/-- `MemRead(addr, 1)` (rule R64). -/
def memRead (s : State) (addr : Nat) : Byte := Memory.read s.ram (addr % 32)

/-- `MemWrite(addr, 1, v)` (rule R65). -/
def memWrite (s : State) (addr v : Nat) : State :=
  { s with ram := Memory.write s.ram (addr % 32) (BitVec.ofNat 8 v) }

/-- `x[i]` (rule R21). -/
def readReg (s : State) (i : Nat) : Byte := s.x[i % 8]'(Nat.mod_lt _ (by decide))

/-- `x[i] <- v` (rule R22). -/
def writeReg (s : State) (i v : Nat) : State :=
  { s with x := s.x.set (i % 8) (BitVec.ofNat 8 v) (Nat.mod_lt _ (by decide)) }

/-- `flag[k]` (rule R30). -/
def readFlag (s : State) (k : Nat) : Bool := s.flag[k % 16]'(Nat.mod_lt _ (by decide))

/-- `flag[k] <- p` (rule R30). -/
def writeFlag (s : State) (k : Nat) (p : Bool) : State :=
  { s with flag := s.flag.set (k % 16) p (Nat.mod_lt _ (by decide)) }

/-- A flag bank with consecutive flags replaced, the first at `k` (rule R30, one write after another). -/
def putFlags (f : Vector Bool 16) (k : Nat) : List Bool → Vector Bool 16
  | [] => f
  | p :: ps => putFlags (f.set (k % 16) p (Nat.mod_lt _ (by decide))) (k + 1) ps

/-- Write consecutive flags, the first at `k`. -/
def writeFlags (s : State) (k : Nat) (ps : List Bool) : State := { s with flag := putFlags s.flag k ps }

/-- `in[i]`, reached by the host's snapshot only (rules R40, R66). -/
def readIn (s : State) (i : Nat) : Byte := s.inPort[i % 8]'(Nat.mod_lt _ (by decide))

/-- `out[i]`, reached by the host's snapshot only (rules R40, R66). -/
def readOut (s : State) (i : Nat) : Byte := s.outPort[i % 8]'(Nat.mod_lt _ (by decide))

/-- `pc <- t` (rule R26). -/
def setPc (s : State) (t : Nat) : State := { s with pc := BitVec.ofNat 6 t }

/-- The sequential advance `pc <- (pc + 1) mod 64` (rule R26, decision D2; log 22). -/
def advancePc (s : State) : State := setPc s (s.pc.toNat + 1)

/-- `mode <- m` (rule R35). -/
def setMode (s : State) (m : Mode) : State := { s with mode := m }

/-- Drop the oldest entry and append `e` as the newest (rule R42). -/
def pushEntry (t : Vector TraceEntry 7) (e : TraceEntry) : Vector TraceEntry 7 :=
  #v[t[1], t[2], t[3], t[4], t[5], t[6], e]

/-- Push the same entry `n` times. -/
def pushEntries (t : Vector TraceEntry 7) (e : TraceEntry) : Nat → Vector TraceEntry 7
  | 0 => t
  | n + 1 => pushEntry (pushEntries t e n) e

/-- `push_trace(e)` (rule R42). -/
def pushTrace (s : State) (e : TraceEntry) : State := { s with trace := pushEntry s.trace e }

/-- The entries of a `load` whose number is unspecified (rule R291; log 8): a free choice of how many. -/
def pushLoadReports (s : State) : State :=
  { s with
    trace := pushEntries s.trace .loadReport (Config.extraLoadEntries s.freeIdx)
    freeIdx := s.freeIdx + 1 }

/-- A counter value as `CNT_WIDTH` keeps it (rule R38, decision D12; log 3). -/
def keepCount (cfg : Config) (n : Nat) : Nat :=
  match cfg.cntWidth with
  | none => n
  | some k => n % 2 ^ k

end Sys2Proof.Machine
end

