-- ==== Sys2Proof/Machine/Flags.lean ====
section
/-! DEFINITION. Results and flags of the ALU and of CMP as functions of the operands' numbers 0..255. Sums and
differences are exact ("a widened integer before truncation", rule R152) and narrowed at the end. -/

namespace Sys2Proof.Machine

/-- The result of ADD: `(A + B) mod 256` (rule R146). -/
def sumResult (A B : Nat) : Nat := (A + B) % 256

/-- The result of SUB: `(A - B) mod 256` (rule R147). -/
def differenceResult (A B : Nat) : Nat := (((A : Int) - (B : Int)) % 256).toNat

/-- The result of AND (rule R148). -/
def andResult (A B : Nat) : Nat := A &&& B

/-- The result of NOR: `NOT8(A OR B) = 255 - (A OR B)` (rule R149). -/
def norResult (A B : Nat) : Nat := 255 - (A ||| B)

/-- The result of XOR (rule R150). -/
def xorResult (A B : Nat) : Nat := A ^^^ B

/-- The result of RSH: `A div 2`, a logical shift (rule R151, decision D8; log 21). -/
def rshResult (A : Nat) : Nat := A / 2

/-- The carry-out of ADD: bit 8 of the 9-bit sum (rule R142). -/
def addCarry (A B : Nat) : Bool := (A + B).testBit 8

/-- The carry-out of SUB: bit 8 of the 9-bit difference, a borrow (rule R142, decision D4; log 17). -/
def subCarry (A B : Nat) : Bool := ((((A : Int) - (B : Int)) % 512).toNat).testBit 8

/-- `sext_8` (`00_scope.md` section 5.1). -/
def sext8 (v : Nat) : Int := if v < 128 then (v : Int) else (v : Int) - 256

/-- The number fits in a signed 8-bit value (rule R143). -/
def fitsSigned8 (z : Int) : Bool := decide (-128 ≤ z) && decide (z ≤ 127)

/-- Signed overflow of ADD (rule R143). -/
def addOverflow (A B : Nat) : Bool := !fitsSigned8 (sext8 A + sext8 B)

/-- Signed overflow of SUB (rule R143, decision D5; log 18). -/
def subOverflow (A B : Nat) : Bool := !fitsSigned8 (sext8 A - sext8 B)

/-- Flag 0 (rule R141). -/
def zeroFlag (r : Nat) : Bool := r % 256 == 0

/-- Flag 6: bit 0 of the result is 0 (rule R144, decision D6; log 19). -/
def evenFlag (r : Nat) : Bool := !r.testBit 0

/-- Flags 0 to 7 of ADD and SUB, from the result, the carry and the overflow (rules R141 to R144). -/
def arithmeticFlags (r : Nat) (carry overflow : Bool) : List Bool :=
  [zeroFlag r, !zeroFlag r, carry, !carry, overflow, !overflow, evenFlag r, !evenFlag r]

/-- Flags 0 to 7 of AND, NOR, XOR and RSH: flags 2 to 5 are forced false (rule R145). -/
def bitwiseFlags (r : Nat) : List Bool :=
  [zeroFlag r, !zeroFlag r, false, false, false, false, evenFlag r, !evenFlag r]

/-- Flags 8 to 15 of CMP, an unsigned comparison (rule R171; rule R173, decision D7; log 20). -/
def compareFlags (A B : Nat) : List Bool :=
  [decide (A > B), decide (A ≤ B), decide (A < B), decide (A ≥ B), decide (A = B), decide (A ≠ B), false, true]

end Sys2Proof.Machine
end

