-- ==== Sys2Proof/Machine/Operands.lean ====
section
/-! DEFINITION. Every operand form of the instruction set (rule R99): a register, an immediate (the number itself), a
direct RAM address, a RAM address in a register, a direct branch target, a branch target in a register. No form has a
displacement, an index, a scale or a side effect on its register (`43_load_store.md`). -/

namespace Sys2Proof.Machine

/-- A register operand's value as a number 0..255 (rules R21, R92). -/
def regOperand (s : State) (f : Nat) : Nat := (readReg s f).toNat

/-- The RAM cell a direct address names (rules R181, R182). -/
def directCell (addr : Nat) : Nat := addr % 32

/-- The RAM cell a pointer register names (rules R183, R184). -/
def pointerCell (s : State) (ptr : Nat) : Nat := regOperand s ptr % 32

/-- The ROM index a direct branch address names (rules R200, R202). -/
def directTarget (addr : Nat) : Nat := addr % 64

/-- The ROM index a pointer register names (rule R201). -/
def pointerTarget (s : State) (ptr : Nat) : Nat := regOperand s ptr % 64

end Sys2Proof.Machine
end

