-- ==== Sys2Proof/Machine/Alu.lean ====
section
/-! DEFINITION. ADD, SUB, AND, NOR, XOR and RSH (`41_alu.md`). -/

namespace Sys2Proof.Machine

/-- What the six ALU instructions share: the result into `x[dest]`, flags 0 to 7, the sequential advance. Result and
flags are computed from the old registers before this is called (rule R122). -/
def aluWriteback (s : State) (dest r : Nat) (flags : List Bool) : State :=
  advancePc (writeFlags (writeReg s dest r) 0 flags)

/-- ADD (rule R146). -/
def execAdd (dest a b : Nat) (s : State) : Host.Outcome State Fault Refusal :=
  .next (aluWriteback s dest (sumResult (regOperand s a) (regOperand s b))
    (arithmeticFlags (sumResult (regOperand s a) (regOperand s b))
      (addCarry (regOperand s a) (regOperand s b)) (addOverflow (regOperand s a) (regOperand s b))))

/-- SUB (rule R147): the minuend is `x[a]`, the subtrahend `x[b]`. -/
def execSub (dest a b : Nat) (s : State) : Host.Outcome State Fault Refusal :=
  .next (aluWriteback s dest (differenceResult (regOperand s a) (regOperand s b))
    (arithmeticFlags (differenceResult (regOperand s a) (regOperand s b))
      (subCarry (regOperand s a) (regOperand s b)) (subOverflow (regOperand s a) (regOperand s b))))

/-- What AND, NOR, XOR and RSH share (rule R145). -/
def bitwiseWriteback (s : State) (dest r : Nat) : State := aluWriteback s dest r (bitwiseFlags r)

/-- AND (rule R148). -/
def execAnd (dest a b : Nat) (s : State) : Host.Outcome State Fault Refusal :=
  .next (bitwiseWriteback s dest (andResult (regOperand s a) (regOperand s b)))

/-- NOR (rule R149). -/
def execNor (dest a b : Nat) (s : State) : Host.Outcome State Fault Refusal :=
  .next (bitwiseWriteback s dest (norResult (regOperand s a) (regOperand s b)))

/-- XOR (rule R150). -/
def execXor (dest a b : Nat) (s : State) : Host.Outcome State Fault Refusal :=
  .next (bitwiseWriteback s dest (xorResult (regOperand s a) (regOperand s b)))

/-- RSH (rule R151). -/
def execRsh (dest a : Nat) (s : State) : Host.Outcome State Fault Refusal :=
  .next (bitwiseWriteback s dest (rshResult (regOperand s a)))

end Sys2Proof.Machine
end

