-- ==== Sys2Proof/Machine/Branch.lean ====
section
/-! DEFINITION. BRC, BRP and JMP (`44_branch.md`). They write the pc and nothing else. -/

namespace Sys2Proof.Machine

/-- What BRC and BRP share: the pc becomes the target when the flag is true, else the next index. -/
def branchIf (s : State) (cond target : Nat) : State :=
  setPc s (if readFlag s cond then target else s.pc.toNat + 1)

/-- BRC (rule R200). -/
def execBrc (cond addr : Nat) (s : State) : Host.Outcome State Fault Refusal :=
  .next (branchIf s cond (directTarget addr))

/-- BRP (rule R201). -/
def execBrp (cond ptr : Nat) (s : State) : Host.Outcome State Fault Refusal :=
  .next (branchIf s cond (pointerTarget s ptr))

/-- JMP (rule R202). -/
def execJmp (addr : Nat) (s : State) : Host.Outcome State Fault Refusal :=
  .next (setPc s (directTarget addr))

end Sys2Proof.Machine
end

