-- ==== Sys2Proof/Machine/Compare.lean ====
section
/-! DEFINITION. CMP (`42_compare.md`). -/

namespace Sys2Proof.Machine

/-- CMP (rules R170 to R172): flags 8 to 15 and nothing else but the pc. -/
def execCmp (a b : Nat) (s : State) : Host.Outcome State Fault Refusal :=
  .next (advancePc (writeFlags s 8 (compareFlags (regOperand s a) (regOperand s b))))

end Sys2Proof.Machine
end

