-- ==== Sys2Proof/Machine/LoadStore.lean ====
section
/-! DEFINITION. LDI, LDM, STM, LDP and STP (`43_load_store.md`). None writes a flag. -/

namespace Sys2Proof.Machine

/-- What LDI, LDM and LDP share: a value into `x[dest]` and the sequential advance. -/
def loadInto (s : State) (dest v : Nat) : State := advancePc (writeReg s dest v)

/-- What STM and STP share: `x[src]` into a RAM cell and the sequential advance. -/
def storeFrom (s : State) (src cell : Nat) : State := advancePc (memWrite s cell (regOperand s src))

/-- LDI (rule R180). -/
def execLdi (dest imm : Nat) (s : State) : Host.Outcome State Fault Refusal :=
  .next (loadInto s dest imm)

/-- LDM (rule R181). -/
def execLdm (dest addr : Nat) (s : State) : Host.Outcome State Fault Refusal :=
  .next (loadInto s dest (memRead s (directCell addr)).toNat)

/-- STM (rule R182). -/
def execStm (src addr : Nat) (s : State) : Host.Outcome State Fault Refusal :=
  .next (storeFrom s src (directCell addr))

/-- LDP (rule R183): the address comes from the old `x[ptr]`. -/
def execLdp (dest ptr : Nat) (s : State) : Host.Outcome State Fault Refusal :=
  .next (loadInto s dest (memRead s (pointerCell s ptr)).toNat)

/-- STP (rule R184): the pointer is the first operand. -/
def execStp (ptr src : Nat) (s : State) : Host.Outcome State Fault Refusal :=
  .next (storeFrom s src (pointerCell s ptr))

end Sys2Proof.Machine
end

