-- ==== Sys2Proof/Machine/System.lean ====
section
/-! DEFINITION. HALT, the one system instruction (`40_cycle_and_halt.md`). It is the machine's stop in place of a trap
entry: it saves nothing (rule R224), and the return from it is a mode command of the host (rule R225). -/

namespace Sys2Proof.Machine

/-- HALT (rule R125). -/
def execHalt (s : State) : Host.Outcome State Fault Refusal := .next (advancePc (setMode s .setup))

end Sys2Proof.Machine
end

