-- ==== Sys2Proof/Machine/Dispatch.lean ====
section
/-! DEFINITION. One arm per instruction. -/

namespace Sys2Proof.Machine

def exec (i : Instr) (s : State) : Host.Outcome State Fault Refusal :=
  match i with
  | .halt => Sys2Proof.Machine.execHalt s
  | .add dest a b => Sys2Proof.Machine.execAdd dest a b s
  | .sub dest a b => Sys2Proof.Machine.execSub dest a b s
  | .and dest a b => Sys2Proof.Machine.execAnd dest a b s
  | .nor dest a b => Sys2Proof.Machine.execNor dest a b s
  | .xor dest a b => Sys2Proof.Machine.execXor dest a b s
  | .rsh dest a => Sys2Proof.Machine.execRsh dest a s
  | .cmp a b => Sys2Proof.Machine.execCmp a b s
  | .ldi dest imm => Sys2Proof.Machine.execLdi dest imm s
  | .ldm dest addr => Sys2Proof.Machine.execLdm dest addr s
  | .stm src addr => Sys2Proof.Machine.execStm src addr s
  | .ldp dest ptr => Sys2Proof.Machine.execLdp dest ptr s
  | .stp ptr src => Sys2Proof.Machine.execStp ptr src s
  | .brc cond addr => Sys2Proof.Machine.execBrc cond addr s
  | .brp cond ptr => Sys2Proof.Machine.execBrp cond ptr s
  | .jmp addr => Sys2Proof.Machine.execJmp addr s

end Sys2Proof.Machine
end

