-- ==== Sys2Proof/Machine/Loader.lean ====
section
/-! DEFINITION. Program loading (`70_reset_and_hazards.md` section 2): the text of a ROM source and of a RAM source,
line by line. -/

namespace Sys2Proof.Machine

/-- The lines of a text, split at every line feed (rules R286, R291). -/
def splitLines : List Char → List (List Char)
  | [] => [[]]
  | c :: cs =>
    if c = '\n' then [] :: splitLines cs
    else
      match splitLines cs with
      | [] => [[c]]
      | l :: ls => (c :: l) :: ls

/-- White space other than space, horizontal tab, carriage return and line feed, by the characters' numbers (the
Unicode White_Space property; log 9). -/
def isOtherSpace (c : Char) : Bool :=
  [0x0B, 0x0C, 0x85, 0xA0, 0x1680, 0x2000, 0x2001, 0x2002, 0x2003, 0x2004, 0x2005, 0x2006, 0x2007, 0x2008, 0x2009,
    0x200A, 0x2028, 0x2029, 0x202F, 0x205F, 0x3000].contains c.toNat

/-- What `trim` removes: "at least space, horizontal tab and carriage return" (rule R291); whether it removes other
white space is free (log 9). -/
def isTrimmed (c : Char) : Bool :=
  c == ' ' || c == '\t' || c == '\r' || (isOtherSpace c && Config.trimsOtherSpace c)

/-- `trim` (rule R291): leading and trailing white space removed. -/
def trim (l : List Char) : List Char :=
  (((l.dropWhile isTrimmed).reverse).dropWhile isTrimmed).reverse

/-- The value of '0' or '1'; no other character is valid, no sign and no prefix (rule R291). -/
def bitValue (c : Char) : Option Nat :=
  if c = '0' then some 0 else if c = '1' then some 1 else none

/-- A base-2 numeral, leftmost character most significant, continuing from `acc`; none if a character is neither
'0' nor '1' (rules R286, R72). -/
def parseBits (acc : Nat) : List Char → Option Nat
  | [] => some acc
  | c :: cs =>
    match bitValue c with
    | some b => parseBits (acc * 2 + b) cs
    | none => none

/-- What a line is to a source whose lines have `len` characters (rules R286 to R288). -/
inductive Line where
  /-- Another length: skipped, not an error. -/
  | skipped
  /-- The value of a valid line. -/
  | valid (v : Nat)
  /-- The required length with a character that is neither '0' nor '1'. -/
  | malformed
  deriving DecidableEq, Repr

/-- Classify a line by its trimmed text (rules R286 to R288). -/
def classify (len : Nat) (line : List Char) : Line :=
  if (trim line).length = len then
    match parseBits 0 (trim line) with
    | some v => .valid v
    | none => .malformed
  else .skipped

/-- Process the lines from line number `i` on: a valid line is written at its line's index, a skipped line counts, the
first malformed line stops the processing and keeps what is written (rules R286, R287, R288). The Bool says whether the
processing was not stopped. -/
def loadLines (len : Nat) (write : State → Nat → Nat → State) (i : Nat) : List (List Char) → State → State × Bool
  | [], s => (s, true)
  | l :: ls, s =>
    match classify len l with
    | .skipped => loadLines len write (i + 1) ls s
    | .valid v => loadLines len write (i + 1) ls (write s i v)
    | .malformed => (s, false)

/-- The ROM source (rules R286, R287): its words, and one entry that names the source, reports corruption, or says that
the program was not found. -/
def loadRom (src : Option (List Char)) (s : State) : State :=
  match src with
  | none => pushTrace s .programNotFound
  | some text =>
    match loadLines 16 romWrite 0 (splitLines text) s with
    | (s', true) => pushTrace s' .romLoaded
    | (s', false) => pushTrace s' .romCorrupt

/-- The RAM source (rules R288, R289): its cells; a failure is logged, a missing source changes nothing. -/
def loadRam (src : Option (List Char)) (s : State) : State :=
  match src with
  | none => s
  | some text =>
    match loadLines 8 memWrite 0 (splitLines text) s with
    | (s', true) => s'
    | (s', false) => pushTrace s' .ramCorrupt

/-- `load` in Setup: the ROM source first, then the RAM source, each whatever happened to the other (rule R285, decision
D23; log 23), with entries of unspecified number before, between and after (rule R291; log 8). -/
def loadSources (rom ram : Option (List Char)) (s : State) : State :=
  pushLoadReports (loadRam ram (pushLoadReports (loadRom rom (pushLoadReports s))))

end Sys2Proof.Machine
end

