-- ==== Sys2Proof/Machine/HostEvents.lean ====
section
/-! DEFINITION. The host's commands and its read accessors (`60_exceptions.md` sections 5 and 10,
`70_reset_and_hazards.md` section 1). The seventh event, `cycle`, is in `Machine/Cycle.lean`. -/

namespace Sys2Proof.Machine

/-- `program_reset()` (rule R270), accepted in every mode (rule R234). -/
def programReset (s : State) : State :=
  { s with
    ram := []
    x := Vector.replicate 8 0
    inPort := Vector.replicate 8 0
    outPort := Vector.replicate 8 0
    flag := resetFlags
    pc := 0
    mode := .setup
    trace := pushEntry s.trace (.priorCount s.icount)
    icount := 0
    last := LastTouched.none }

/-- `full_reset()` (rule R271): zero ROM, then `program_reset`. -/
def fullReset (s : State) : State := programReset { s with rom := [] }

/-- `request_step()`, the step command (rule R231). In ManualStep it changes nothing (decision D9; log 13). -/
def requestStep (s : State) : State :=
  match s.mode with
  | .setup => setMode s .manualStep
  | .automatic => setMode s .manualStep
  | .manualStep => s

/-- `request_manual_mode()`: a second name of the step command (rule R230, decision D9; log 13). -/
def requestManualMode (s : State) : State := requestStep s

/-- `request_automatic_mode()`, the run command (rule R232). In a run mode it changes nothing (decision D9; log 13). -/
def requestAutomaticMode (s : State) : State :=
  match s.mode with
  | .setup => setMode s .automatic
  | .manualStep => s
  | .automatic => s

/-- `load` (rule R285): accepted in Setup only (rule R238, decision D11; log 14). It never changes the mode. -/
def load (rom ram : Option (List Char)) (s : State) : Host.Outcome State Fault Refusal :=
  match s.mode with
  | .setup => .next (loadSources rom ram s)
  | .manualStep => .refused .loadOutsideSetup
  | .automatic => .refused .loadOutsideSetup

/-- What the host reads between two events (rule R250). -/
structure Snapshot where
  rom : Vector Word 64
  ram : Vector Byte 32
  x : Vector Byte 8
  inPort : Vector Byte 8
  outPort : Vector Byte 8
  flag : Vector Bool 16
  pc : RomIndex
  mode : Mode
  trace : Vector TraceEntry 7
  icount : Nat
  last : LastTouched
  deriving DecidableEq, Repr

/-- The read accessors (rule R250): they have no side effect. -/
def snapshot (s : State) : Snapshot where
  rom := Vector.ofFn fun i => romRead s i.val
  ram := Vector.ofFn fun i => memRead s i.val
  x := s.x
  inPort := s.inPort
  outPort := s.outPort
  flag := s.flag
  pc := s.pc
  mode := s.mode
  trace := s.trace
  icount := s.icount
  last := s.last

end Sys2Proof.Machine
end

