-- ==== Sys2Proof/Machine/Cycle.lean ====
section
/-! DEFINITION. The `cycle` event (rule R120 of `40_cycle_and_halt.md`), the seven events of rule R6 in one function, and
the next event of a state, each for every configuration. -/

namespace Sys2Proof.Machine

/-- The fetch: `RomRead(pc)` (rules R120, R121). -/
def fetch (s : State) : Word := romRead s s.pc.toNat

/-- The last-touched indices after a cycle that ran `i` from `s` (rule R44; log 10): of each store the last access in
the order of the instruction's pseudocode, a store without an access keeping its own. The fetch touches ROM. -/
def touchedBy (i : Instr) (s : State) : LastTouched :=
  let f : LastTouched := { s.last with rom := some (s.pc.toNat % 64) }
  match i with
  | .halt => f
  | .add d _ _ => { f with x := some (d % 8), flag := some 7 }
  | .sub d _ _ => { f with x := some (d % 8), flag := some 7 }
  | .and d _ _ => { f with x := some (d % 8), flag := some 7 }
  | .nor d _ _ => { f with x := some (d % 8), flag := some 7 }
  | .xor d _ _ => { f with x := some (d % 8), flag := some 7 }
  | .rsh d _ => { f with x := some (d % 8), flag := some 7 }
  | .cmp _ b => { f with x := some (b % 8), flag := some 15 }
  | .ldi d _ => { f with x := some (d % 8) }
  | .ldm d addr => { f with ram := some (directCell addr), x := some (d % 8) }
  | .stm src addr => { f with ram := some (directCell addr), x := some (src % 8) }
  | .ldp d p => { f with ram := some (pointerCell s p), x := some (d % 8) }
  | .stp p src => { f with ram := some (pointerCell s p), x := some (src % 8) }
  | .brc c _ => { f with flag := some (c % 16) }
  | .brp c p => { f with flag := some (c % 16), x := if readFlag s c then some (p % 8) else f.x }
  | .jmp _ => f

/-- The bookkeeping of a cycle (rule R120): `icount` goes up by 1, one trace entry is pushed, the last-touched indices
move. `s` is the state before the instruction `i`, `t` the state it left. The three writes are of fields no instruction
writes, so their order cannot be seen (rule R120; log 25). -/
def retire (cfg : Config) (i : Instr) (s t : State) : State :=
  { t with
    icount := keepCount cfg (t.icount + 1)
    trace := pushEntry t.trace (.executed i)
    last := touchedBy i s }

/-- Fetch, decode, execute, retire (rule R120). -/
def runCycle (cfg : Config) (s : State) : Host.Outcome State Fault Refusal :=
  match exec (decodeWith cfg.twoNibbleLayout (fetch s)) s with
  | .next t => .next (retire cfg (decodeWith cfg.twoNibbleLayout (fetch s)) s t)
  | .fault r => .fault r
  | .refused r => .refused r

/-- The `cycle` event with its precondition (rule R124; log 2). -/
def cycle (cfg : Config) (s : State) : Host.Outcome State Fault Refusal :=
  match s.mode, cfg.setupCycle with
  | .setup, .refuse => .refused .cycleInSetup
  | .setup, .execute => runCycle cfg s
  | .manualStep, _ => runCycle cfg s
  | .automatic, _ => runCycle cfg s

/-- One event, whole and atomic (rules R6, R7). -/
def perform (cfg : Config) (e : HostEvent) (s : State) : Host.Outcome State Fault Refusal :=
  match e with
  | .load rom ram => load rom ram s
  | .fullReset => .next (fullReset s)
  | .programReset => .next (programReset s)
  | .requestManualMode => .next (requestManualMode s)
  | .requestAutomaticMode => .next (requestAutomaticMode s)
  | .requestStep => .next (requestStep s)
  | .cycle => cycle cfg s

/-- The event a state performs next: the first one pending, or, with nothing pending, the `cycle` that the host's loop
issues (rule R236; log 4). -/
def nextEvent (s : State) : HostEvent :=
  match s.pending with
  | [] => .cycle
  | e :: _ => e

/-- Perform the next event, which is then no longer pending (log 4). -/
def stepWith (cfg : Config) (s : State) : Host.Outcome State Fault Refusal :=
  perform cfg (nextEvent s) { s with pending := s.pending.tail }

/-- The word placed where the next step fetches, nothing pending, and a run mode: the host's `load` and its run command
in one (rules R280, R232; log 5). -/
def placeWord (s : State) (v : Nat) : State :=
  { romWrite s s.pc.toNat v with
    mode := match s.mode with
      | .setup => .automatic
      | .manualStep => .manualStep
      | .automatic => .automatic
    pending := [] }

end Sys2Proof.Machine
end

