-- ==== Sys2Proof/Machine/Step.lean ====
section
/-! DEFINITION. One step: the next event under the spec's default configuration. -/

namespace Sys2Proof.Machine

/-- One event of rule R6 under the defaults of rule R4. -/
def step (s : State) : Host.Outcome State Fault Refusal := stepWith Config.default s

/-- `s` with the word of an `nbits`-bit instruction placed so that the very next step runs it (log 5). -/
def State.withFetchWord (s : State) (nbits w : Nat) : State := placeWord s (w % 2 ^ nbits)

end Sys2Proof.Machine
end

