-- ==== Sys2Proof/Safety.lean ====
section
/-! DEFINITION. What claims call a good state and a conforming host. -/

namespace Sys2Proof.Machine

/-- What every event keeps: both memories in canonical form within their sizes (rules R60, R61), flag 14 false and flag
15 true (rule R33), the port latches 0 (rule R40). Rule R33 and rule R40 say these of "every state reachable from a
reset". -/
structure Inv (s : State) : Prop where
  romWf : Memory.wf 64 s.rom = true
  ramWf : Memory.wf 32 s.ram = true
  never : readFlag s 14 = false
  always : readFlag s 15 = true
  inZero : s.inPort = Vector.replicate 8 0
  outZero : s.outPort = Vector.replicate 8 0

/-- The event is within its precondition: `cycle` in a run mode (rule R236), `load` in Setup (rule R238), every other
event in every mode (rules R231 to R234). -/
def accepts (m : Mode) (e : HostEvent) : Bool :=
  match e with
  | .cycle => m != .setup
  | .load _ _ => m == .setup
  | .fullReset => true
  | .programReset => true
  | .requestManualMode => true
  | .requestAutomaticMode => true
  | .requestStep => true

/-- The next event of the state is one a conforming host issues (rules R236, R238). A run ends (rule R9) in the first
state where this is false. -/
def conforming (s : State) : Bool := accepts s.mode (nextEvent s)

end Sys2Proof.Machine
end

