-- ==== Sys2Proof/Certificates/Slice0/Obligations.lean ====
section
/-! DEFINITION. The statements for the provers, from the numbered rules of `spec/`. Every statement about an
instruction's effect has as its conclusion that `exec` answers a next state, and says of every field of State what that
state holds. The pc's wrap from 63 to 0, which the sequential advance of every instruction contains, is the spec's own
decision D2 (log 22), so a statement that contains it has basis "derived". -/

open Sys2Proof Sys2Proof.Machine

/-! ## Words the statements share -/

namespace Sys2Proof.Claims

/-- The outcome with its next state, if it has one, passed through `f`. -/
def mapNext (f : State → State) : Host.Outcome State Fault Refusal → Host.Outcome State Fault Refusal
  | .next t => .next (f t)
  | .fault r => .fault r
  | .refused r => .refused r

/-- Every register reads as before. -/
def SameRegs (s t : State) : Prop := ∀ n, readReg t n = readReg s n

/-- Register `d mod 8` holds `v`, every other register reads as before. -/
def RegWritten (s t : State) (d v : Nat) : Prop :=
  ∀ n, (readReg t n).toNat = if n % 8 = d % 8 then v else (readReg s n).toNat

/-- Every RAM cell reads as before. -/
def SameRam (s t : State) : Prop := ∀ n, memRead t n = memRead s n

/-- RAM cell `a mod 32` holds `v`, every other cell reads as before. -/
def CellWritten (s t : State) (a : Nat) (v : Byte) : Prop :=
  ∀ n, memRead t n = if n % 32 = a % 32 then v else memRead s n

/-- Every flag reads as before. -/
def SameFlags (s t : State) : Prop := ∀ k, readFlag t k = readFlag s k

/-- Flags 8 to 15 read as before. -/
def SameHighFlags (s t : State) : Prop := ∀ k, 8 ≤ k % 16 → readFlag t k = readFlag s k

/-- Flags 0 to 7 read as before. -/
def SameLowFlags (s t : State) : Prop := ∀ k, k % 16 < 8 → readFlag t k = readFlag s k

/-- The sequential advance (rule R26). -/
def PcAdvanced (s t : State) : Prop := t.pc.toNat = (s.pc.toNat + 1) % 64

/-- The fields that no instruction writes; `icount`, `trace` and `last` are the cycle's, not the instruction's. -/
def Untouched (s t : State) : Prop :=
  t.rom = s.rom ∧ t.inPort = s.inPort ∧ t.outPort = s.outPort ∧ t.trace = s.trace ∧ t.icount = s.icount ∧
    t.last = s.last ∧ t.pending = s.pending ∧ t.freeIdx = s.freeIdx

/-- Flags 0 to 7 of ADD and SUB for a result, a carry and a signed overflow (rules R141 to R144). -/
def ArithmeticFlags (t : State) (r : Nat) (carry overflow : Prop) : Prop :=
  (readFlag t 0 = true ↔ r = 0) ∧ (readFlag t 1 = true ↔ r ≠ 0) ∧
    (readFlag t 2 = true ↔ carry) ∧ (readFlag t 3 = true ↔ ¬carry) ∧
    (readFlag t 4 = true ↔ overflow) ∧ (readFlag t 5 = true ↔ ¬overflow) ∧
    (readFlag t 6 = true ↔ r % 2 = 0) ∧ (readFlag t 7 = true ↔ r % 2 = 1)

/-- Flags 0 to 7 of AND, NOR, XOR and RSH (rule R145). -/
def BitwiseFlags (t : State) (r : Nat) : Prop :=
  (readFlag t 0 = true ↔ r = 0) ∧ (readFlag t 1 = true ↔ r ≠ 0) ∧
    readFlag t 2 = false ∧ readFlag t 3 = false ∧ readFlag t 4 = false ∧ readFlag t 5 = false ∧
    (readFlag t 6 = true ↔ r % 2 = 0) ∧ (readFlag t 7 = true ↔ r % 2 = 1)

/-- What AND, NOR, XOR and RSH do with their result `r`. -/
def BitwiseEffect (s t : State) (d r : Nat) : Prop :=
  RegWritten s t d r ∧ BitwiseFlags t r ∧ SameHighFlags s t ∧ SameRam s t ∧ PcAdvanced s t ∧ t.mode = s.mode ∧
    Untouched s t

/-- What a load does with the value `v`. -/
def LoadEffect (s t : State) (d v : Nat) : Prop :=
  RegWritten s t d v ∧ SameFlags s t ∧ SameRam s t ∧ PcAdvanced s t ∧ t.mode = s.mode ∧ Untouched s t

/-- What a store does: `v` into the cell `a mod 32`. -/
def StoreEffect (s t : State) (a : Nat) (v : Byte) : Prop :=
  CellWritten s t a v ∧ SameRegs s t ∧ SameFlags s t ∧ PcAdvanced s t ∧ t.mode = s.mode ∧ Untouched s t

/-- What a control transfer does: the pc becomes `target`, nothing else changes. -/
def JumpEffect (s t : State) (target : Nat) : Prop :=
  t.pc.toNat = target ∧ SameRegs s t ∧ SameFlags s t ∧ SameRam s t ∧ t.mode = s.mode ∧ Untouched s t

/-- The registers an instruction reads (the table of rule R24). -/
def regsRead : Instr → List Nat
  | .halt => []
  | .add _ a b => [a, b]
  | .sub _ a b => [a, b]
  | .and _ a b => [a, b]
  | .nor _ a b => [a, b]
  | .xor _ a b => [a, b]
  | .rsh _ a => [a]
  | .cmp a b => [a, b]
  | .ldi _ _ => []
  | .ldm _ _ => []
  | .stm src _ => [src]
  | .ldp _ p => [p]
  | .stp p src => [p, src]
  | .brc _ _ => []
  | .brp _ p => [p]
  | .jmp _ => []

/-- The register an instruction writes (the table of rule R24). -/
def regWritten : Instr → Option Nat
  | .halt => none
  | .add d _ _ => some d
  | .sub d _ _ => some d
  | .and d _ _ => some d
  | .nor d _ _ => some d
  | .xor d _ _ => some d
  | .rsh d _ => some d
  | .cmp _ _ => none
  | .ldi d _ => some d
  | .ldm d _ => some d
  | .stm _ _ => none
  | .ldp d _ => some d
  | .stp _ _ => none
  | .brc _ _ => none
  | .brp _ _ => none
  | .jmp _ => none

/-- ADD, SUB, AND, NOR, XOR, RSH (rule R32). -/
def isAlu (i : Instr) : Bool :=
  i.opcode == .add || i.opcode == .sub || i.opcode == .and || i.opcode == .nor || i.opcode == .xor || i.opcode == .rsh

/-- The bits of a word that no operand of its opcode takes (rule R102, with rule R95's layout for LDP, STP, BRP). -/
def unusedBits (l : TwoNibbleLayout) : Opcode → Word
  | .halt => 0x0FFF
  | .rsh => 0x000F
  | .cmp => 0x0F00
  | .ldp => match l with | .packedHigh => 0x000F | .low => 0x00F0
  | .stp => match l with | .packedHigh => 0x000F | .low => 0x00F0
  | .brp => match l with | .packedHigh => 0x000F | .low => 0x00F0
  | .add => 0
  | .sub => 0
  | .and => 0
  | .nor => 0
  | .xor => 0
  | .ldi => 0
  | .ldm => 0
  | .stm => 0
  | .brc => 0
  | .jmp => 0

/-- Bit 3 of every register field of the opcode (rules R92, R102, with rule R95's layout for LDP, STP, BRP). -/
def fieldTopBits (l : TwoNibbleLayout) : Opcode → Word
  | .halt => 0
  | .add => 0x0888
  | .sub => 0x0888
  | .and => 0x0888
  | .nor => 0x0888
  | .xor => 0x0888
  | .rsh => 0x0880
  | .cmp => 0x0088
  | .ldi => 0x0800
  | .ldm => 0x0800
  | .stm => 0x0800
  | .ldp => match l with | .packedHigh => 0x0880 | .low => 0x0808
  | .stp => match l with | .packedHigh => 0x0880 | .low => 0x0808
  | .brc => 0
  | .brp => match l with | .packedHigh => 0x0080 | .low => 0x0008
  | .jmp => 0

/-- The transition table of rule R235: `none` where the table says "refused". `isHalt` says whether the instruction at
the pc is HALT. -/
def nextMode (m : Mode) (e : HostEvent) (isHalt : Bool) : Option Mode :=
  match e, m with
  | .requestStep, .setup => some .manualStep
  | .requestStep, .manualStep => some .manualStep
  | .requestStep, .automatic => some .manualStep
  | .requestManualMode, .setup => some .manualStep
  | .requestManualMode, .manualStep => some .manualStep
  | .requestManualMode, .automatic => some .manualStep
  | .requestAutomaticMode, .setup => some .automatic
  | .requestAutomaticMode, .manualStep => some .manualStep
  | .requestAutomaticMode, .automatic => some .automatic
  | .cycle, .setup => none
  | .cycle, .manualStep => if isHalt then some .setup else some .manualStep
  | .cycle, .automatic => if isHalt then some .setup else some .automatic
  | .programReset, _ => some .setup
  | .fullReset, _ => some .setup
  | .load _ _, .setup => some .setup
  | .load _ _, .manualStep => none
  | .load _ _, .automatic => none

/-- The lines as one text, a line feed between two of them (rule R286). -/
def joinLines (lines : List (List Char)) : List Char := List.intercalate ['\n'] lines

/-- The `w` binary digits of a cell, the most significant first (rule R72). -/
def renderCell {w : Nat} (v : BitVec w) : List Char :=
  (List.range w).map fun k => if v.getLsbD (w - 1 - k) then '1' else '0'

/-- An image as program text: a cell's digits on its own line, an empty line where the image gives no cell. -/
def renderImage {w : Nat} (img : List (Option (BitVec w))) : List Char :=
  joinLines (img.map fun c => match c with | some v => renderCell v | none => [])

/-- A line that stops the processing of a source whose lines have `len` characters (rules R287, R288). -/
def MalformedLine (len : Nat) (line : List Char) : Prop :=
  (trim line).length = len ∧ ∃ c ∈ trim line, c ≠ '0' ∧ c ≠ '1'

/-- Lines of a text that no line feed splits and none of which is malformed. -/
def CleanLines (len : Nat) (lines : List (List Char)) : Prop :=
  ∀ l ∈ lines, '\n' ∉ l ∧ ¬MalformedLine len l

end Sys2Proof.Claims

open Sys2Proof.Claims

/-! ## Encoding -/

/-- The example words of rule R106's table, and rule R72's 0x8001, decode to the instructions written beside them. -/
def Obligations.SampleWordsDecode : Prop :=
  decode 0x0000 = .halt ∧ decode 0x1001 = .add 0 0 1 ∧ decode 0x2234 = .sub 2 3 4 ∧ decode 0x3765 = .and 7 6 5 ∧
    decode 0x4111 = .nor 1 1 1 ∧ decode 0x5000 = .xor 0 0 0 ∧ decode 0x6230 = .rsh 2 3 ∧ decode 0x7012 = .cmp 1 2 ∧
    decode 0x8005 = .ldi 0 5 ∧ decode 0x8001 = .ldi 0 1 ∧ decode 0x9311 = .ldm 3 17 ∧ decode 0xA311 = .stm 3 17 ∧
    decode 0xB120 = .ldp 1 2 ∧ decode 0xC210 = .stp 2 1 ∧ decode 0xDC09 = .brc 12 9 ∧ decode 0xEF40 = .brp 15 4 ∧
    decode 0xF006 = .jmp 6

/-- The formats N, R3, C, I and J (rules R93, R94, R96, R97, R98): which slices of the word the operands are. They do
not depend on the layout parameter. -/
def Obligations.FormatsOfTheFixedLayouts : Prop :=
  ∀ (l : TwoNibbleLayout) (w : Word),
    let op := w.toNat / 4096
    let hi := w.toNat / 256 % 16
    let mid := w.toNat / 16 % 16
    let lo := w.toNat % 16
    (op = 0 → decodeWith l w = .halt) ∧
      (op = 1 → decodeWith l w = .add hi mid lo) ∧ (op = 2 → decodeWith l w = .sub hi mid lo) ∧
      (op = 3 → decodeWith l w = .and hi mid lo) ∧ (op = 4 → decodeWith l w = .nor hi mid lo) ∧
      (op = 5 → decodeWith l w = .xor hi mid lo) ∧ (op = 7 → decodeWith l w = .cmp mid lo) ∧
      (op = 8 → decodeWith l w = .ldi hi (w.toNat % 256)) ∧ (op = 9 → decodeWith l w = .ldm hi (w.toNat % 256)) ∧
      (op = 10 → decodeWith l w = .stm hi (w.toNat % 256)) ∧ (op = 13 → decodeWith l w = .brc hi (w.toNat % 256)) ∧
      (op = 15 → decodeWith l w = .jmp (w.toNat % 4096))

/-- Format R2 (rule R95) under both values of `TWO_NIBBLE_LAYOUT`: RSH is the same under both; the second operand of
LDP, STP and BRP is `w[7:4]` under `packed_high` and `w[3:0]` under `low`. That the default is `packed_high` is the
spec's decision D3 (log 1); the last clause says so of `decode`. -/
def Obligations.FormatOfTheTwoNibbleForms : Prop :=
  (∀ (l : TwoNibbleLayout) (w : Word), w.toNat / 4096 = 6 →
      decodeWith l w = .rsh (w.toNat / 256 % 16) (w.toNat / 16 % 16)) ∧
    (∀ w : Word,
      let first := w.toNat / 256 % 16
      (w.toNat / 4096 = 11 → decodeWith .packedHigh w = .ldp first (w.toNat / 16 % 16) ∧
        decodeWith .low w = .ldp first (w.toNat % 16)) ∧
      (w.toNat / 4096 = 12 → decodeWith .packedHigh w = .stp first (w.toNat / 16 % 16) ∧
        decodeWith .low w = .stp first (w.toNat % 16)) ∧
      (w.toNat / 4096 = 14 → decodeWith .packedHigh w = .brp first (w.toNat / 16 % 16) ∧
        decodeWith .low w = .brp first (w.toNat % 16))) ∧
    ∀ w : Word, decode w = decodeWith .packedHigh w

/-- Rule R101 (an inference of the spec's own from rule R100): every word is a valid (well-formed) instruction, and
`op = w[15:12]` alone selects which. -/
def Obligations.EveryWordIsAnInstruction : Prop :=
  ∀ (l : TwoNibbleLayout) (w : Word),
    (decodeWith l w).wf = true ∧ (decodeWith l w).opcode.number = w.toNat / 4096

/-- Encoding loses no operand bit: under either layout every well-formed instruction is read back from its word
(rules R91 to R100). -/
def Obligations.DecodeOfEncodeIsTheInstruction : Prop :=
  ∀ (l : TwoNibbleLayout) (i : Instr), i.wf = true → decodeWith l (encodeWith l i) = i

/-- The other direction: encoding what a word decodes to gives the word back with the bits no operand takes cleared
(rule R102; that the canonical encoding has them 0 is the spec's decision D18). -/
def Obligations.EncodeOfDecodeClearsUnusedBits : Prop :=
  ∀ (l : TwoNibbleLayout) (w : Word),
    encodeWith l (decodeWith l w) = w &&& ~~~unusedBits l (decodeWith l w).opcode

/-- Rule R102 (an inference of the spec's own): flipping any of the ignored bits of a word, the unused ones and bit 3
of every register field, changes neither its opcode nor what the instruction does, from any state. -/
def Obligations.IgnoredBitsHaveNoEffect : Prop :=
  ∀ (l : TwoNibbleLayout) (w m : Word) (s : State),
    m &&& ~~~(unusedBits l (decodeWith l w).opcode ||| fieldTopBits l (decodeWith l w).opcode) = 0 →
      (decodeWith l (w ^^^ m)).opcode = (decodeWith l w).opcode ∧
        exec (decodeWith l (w ^^^ m)) s = exec (decodeWith l w) s

/-! ## The instructions, one by one -/

/-- HALT (rule R125): mode Setup from any mode, the sequential advance, nothing else; and no other instruction writes
the mode (its corner case 4). -/
def Obligations.HaltStopsAndAdvances : Prop :=
  (∀ s : State, ∃ t, exec .halt s = .next t ∧ t.mode = .setup ∧ PcAdvanced s t ∧ SameRegs s t ∧ SameFlags s t ∧
      SameRam s t ∧ Untouched s t) ∧
    ∀ (i : Instr) (s : State), i ≠ .halt → ∃ t, exec i s = .next t ∧ t.mode = s.mode

/-- ADD (rule R146, with the flags of rules R141 to R144): the operands are the old registers, `dest` may be one of
them. -/
def Obligations.AddResultFlagsAndFrame : Prop :=
  ∀ (d a b : Nat) (s : State), ∃ t, exec (.add d a b) s = .next t ∧
    let A := (readReg s a).toNat
    let B := (readReg s b).toNat
    let z := (readReg s a).toInt + (readReg s b).toInt
    RegWritten s t d ((A + B) % 256) ∧ ArithmeticFlags t ((A + B) % 256) (A + B ≥ 256) (z < -128 ∨ z > 127) ∧
      SameHighFlags s t ∧ SameRam s t ∧ PcAdvanced s t ∧ t.mode = s.mode ∧ Untouched s t

/-- SUB (rule R147, with the flags of rules R141 to R144): flag 2 is a borrow by the spec's decision D4 (log 17), flag
4 the true signed overflow by its decision D5 (log 18). -/
def Obligations.SubResultFlagsAndFrame : Prop :=
  ∀ (d a b : Nat) (s : State), ∃ t, exec (.sub d a b) s = .next t ∧
    let A := (readReg s a).toNat
    let B := (readReg s b).toNat
    let r := if A < B then A + 256 - B else A - B
    let z := (readReg s a).toInt - (readReg s b).toInt
    RegWritten s t d r ∧ ArithmeticFlags t r (A < B) (z < -128 ∨ z > 127) ∧
      SameHighFlags s t ∧ SameRam s t ∧ PcAdvanced s t ∧ t.mode = s.mode ∧ Untouched s t

/-- AND (rules R148, R145). That "parity" is even or odd of the value is the spec's decision D6 (log 19). -/
def Obligations.AndResultFlagsAndFrame : Prop :=
  ∀ (d a b : Nat) (s : State), ∃ t, exec (.and d a b) s = .next t ∧
    BitwiseEffect s t d (readReg s a &&& readReg s b).toNat

/-- NOR (rules R149, R145), the complement taken in 8 bits. "Parity" as in the statement about AND (log 19). -/
def Obligations.NorResultFlagsAndFrame : Prop :=
  ∀ (d a b : Nat) (s : State), ∃ t, exec (.nor d a b) s = .next t ∧
    BitwiseEffect s t d (~~~(readReg s a ||| readReg s b)).toNat

/-- XOR (rules R150, R145). "Parity" as in the statement about AND (log 19). -/
def Obligations.XorResultFlagsAndFrame : Prop :=
  ∀ (d a b : Nat) (s : State), ∃ t, exec (.xor d a b) s = .next t ∧
    BitwiseEffect s t d (readReg s a ^^^ readReg s b).toNat

/-- RSH (rules R151, R145): one position, a zero entering bit 7 (the spec's decision D8, log 21), the bit shifted out
lost. "Parity" as in the statement about AND (log 19). -/
def Obligations.RshResultFlagsAndFrame : Prop :=
  ∀ (d a : Nat) (s : State), ∃ t, exec (.rsh d a) s = .next t ∧
    BitwiseEffect s t d (readReg s a >>> 1).toNat

/-- CMP (rules R170 to R172): an unsigned comparison by the spec's decision D7 (log 20); flags 8 to 15 and the pc are
all it writes. -/
def Obligations.CmpFlagsAndFrame : Prop :=
  ∀ (a b : Nat) (s : State), ∃ t, exec (.cmp a b) s = .next t ∧
    let A := (readReg s a).toNat
    let B := (readReg s b).toNat
    (readFlag t 8 = true ↔ A > B) ∧ (readFlag t 9 = true ↔ A ≤ B) ∧ (readFlag t 10 = true ↔ A < B) ∧
      (readFlag t 11 = true ↔ A ≥ B) ∧ (readFlag t 12 = true ↔ A = B) ∧ (readFlag t 13 = true ↔ A ≠ B) ∧
      readFlag t 14 = false ∧ readFlag t 15 = true ∧
      SameLowFlags s t ∧ SameRegs s t ∧ SameRam s t ∧ PcAdvanced s t ∧ t.mode = s.mode ∧ Untouched s t

/-- LDI (rule R180): `imm mod 256`, not sign-extended, no flag written. -/
def Obligations.LdiResultAndFrame : Prop :=
  ∀ (d imm : Nat) (s : State), ∃ t, exec (.ldi d imm) s = .next t ∧ LoadEffect s t d (imm % 256)

/-- LDM (rule R181): the cell `addr mod 32`. -/
def Obligations.LdmResultAndFrame : Prop :=
  ∀ (d addr : Nat) (s : State), ∃ t, exec (.ldm d addr) s = .next t ∧
    LoadEffect s t d (memRead s (addr % 32)).toNat

/-- STM (rule R182): into the cell `directCell addr`, which is `addr mod 32`; every other cell reads as before. -/
def Obligations.StmResultAndFrame : Prop :=
  ∀ (src addr : Nat) (s : State), Memory.wf 32 s.ram = true →
    directCell addr = addr % 32 ∧
      ∃ t, exec (.stm src addr) s = .next t ∧ StoreEffect s t (directCell addr) (readReg s src)

/-- LDP (rule R183): the cell the old pointer register names, also when `dest` is the pointer. -/
def Obligations.LdpResultAndFrame : Prop :=
  ∀ (d p : Nat) (s : State), ∃ t, exec (.ldp d p) s = .next t ∧
    LoadEffect s t d (memRead s ((readReg s p).toNat % 32)).toNat

/-- STP (rule R184): into the cell `pointerCell s ptr`, which is `x[ptr] mod 32`; every other cell reads as before. -/
def Obligations.StpResultAndFrame : Prop :=
  ∀ (p src : Nat) (s : State), Memory.wf 32 s.ram = true →
    pointerCell s p = (readReg s p).toNat % 32 ∧
      ∃ t, exec (.stp p src) s = .next t ∧ StoreEffect s t (pointerCell s p) (readReg s src)

/-- BRC (rule R200): the target when the flag is true, else the sequential advance; nothing but the pc changes. -/
def Obligations.BrcTargetAndFrame : Prop :=
  ∀ (c addr : Nat) (s : State), ∃ t, exec (.brc c addr) s = .next t ∧
    JumpEffect s t (if readFlag s c = true then addr % 64 else (s.pc.toNat + 1) % 64)

/-- BRP (rule R201): the target is in a register. -/
def Obligations.BrpTargetAndFrame : Prop :=
  ∀ (c p : Nat) (s : State), ∃ t, exec (.brp c p) s = .next t ∧
    JumpEffect s t (if readFlag s c = true then (readReg s p).toNat % 64 else (s.pc.toNat + 1) % 64)

/-- JMP (rule R202) with its encoding: opcode 1111, `addr = w[11:0]`; the pc becomes `addr mod 64 = w[5:0]`, nothing
else changes. -/
def Obligations.JmpTargetAndFrame : Prop :=
  (∀ (addr : Nat) (s : State), ∃ t, exec (.jmp addr) s = .next t ∧ JumpEffect s t (addr % 64)) ∧
    ∀ (l : TwoNibbleLayout) (w : Word) (s : State), w.toNat / 4096 = 15 →
      decodeWith l w = .jmp (w.toNat % 4096) ∧
        ∃ t, exec (decodeWith l w) s = .next t ∧ JumpEffect s t (w.toNat % 64)

/-! ## Rules over the whole instruction set -/

/-- The table of rule R27: the new pc of every instruction. -/
def Obligations.PcAfterEachInstruction : Prop :=
  ∀ (i : Instr) (s : State), ∃ t, exec i s = .next t ∧
    t.pc.toNat = match i with
      | .brc c addr => if readFlag s c = true then addr % 64 else (s.pc.toNat + 1) % 64
      | .brp c p => if readFlag s c = true then (readReg s p).toNat % 64 else (s.pc.toNat + 1) % 64
      | .jmp addr => addr % 64
      | _ => (s.pc.toNat + 1) % 64

/-- Rule R24: an instruction writes no register but the one its row lists, and no register but those its row lists as
read has any influence on what it does: two states that differ in other registers only have the same outcome, up to the
registers, and write the same value. -/
def Obligations.RegistersReadAndWritten : Prop :=
  (∀ (i : Instr) (s : State), ∃ t, exec i s = .next t ∧
      ∀ n, (∀ d, regWritten i = some d → n % 8 ≠ d % 8) → readReg t n = readReg s n) ∧
    ∀ (i : Instr) (s : State) (x' : Vector Byte 8),
      (∀ r ∈ regsRead i, readReg { s with x := x' } r = readReg s r) →
        ∃ t t', exec i s = .next t ∧ exec i { s with x := x' } = .next t' ∧ t' = { t with x := t'.x } ∧
          ∀ d, regWritten i = some d → readReg t' d = readReg t d

/-- Rule R32: the ALU instructions write all eight of flags 0 to 7 (the new values do not depend on the old flags) and
none of 8 to 15; CMP the other way round; no other instruction writes a flag; besides, only the resets do. Flags are
read by BRC and BRP only, each reading the flag `cond`. -/
def Obligations.FlagsReadAndWritten : Prop :=
  (∀ (i : Instr) (s : State), ∃ t, exec i s = .next t ∧
      (isAlu i = true → SameHighFlags s t) ∧ (i.opcode = .cmp → SameLowFlags s t) ∧
      (isAlu i = false → i.opcode ≠ .cmp → SameFlags s t)) ∧
    (∀ (i : Instr) (s : State) (f : Vector Bool 16), ∃ t t', exec i s = .next t ∧
      exec i { s with flag := f } = .next t' ∧
      (isAlu i = true → SameLowFlags t t') ∧ (i.opcode = .cmp → SameHighFlags t t') ∧
      (i.opcode ≠ .brc → i.opcode ≠ .brp → t' = { t with flag := t'.flag })) ∧
    (∀ (c n : Nat) (s : State) (f : Vector Bool 16), readFlag { s with flag := f } c = readFlag s c →
      exec (.brc c n) { s with flag := f } = mapNext (fun t => { t with flag := f }) (exec (.brc c n) s) ∧
        exec (.brp c n) { s with flag := f } = mapNext (fun t => { t with flag := f }) (exec (.brp c n) s)) ∧
    ∀ (cfg : Config) (e : HostEvent) (s t : State), e ≠ .cycle → e ≠ .programReset → e ≠ .fullReset →
      perform cfg e s = .next t → t.flag = s.flag

/-- Rule R60: no instruction reads ROM as data and none writes it; the cycle reads it at the pc and nowhere else; only
`load` and `full_reset` write it; every index is one of 0 to 63. -/
def Obligations.RomIsReadByTheFetchOnly : Prop :=
  (∀ (i : Instr) (s : State) (r : Rom), ∃ t, exec i s = .next t ∧ t.rom = s.rom ∧
      exec i { s with rom := r } = .next { t with rom := r }) ∧
    (∀ (cfg : Config) (s : State) (r : Rom), romRead { s with rom := r } s.pc.toNat = romRead s s.pc.toNat →
      cycle cfg { s with rom := r } = mapNext (fun t => { t with rom := r }) (cycle cfg s)) ∧
    (∀ (cfg : Config) (e : HostEvent) (s t : State), (∀ a b, e ≠ .load a b) → e ≠ .fullReset →
      perform cfg e s = .next t → t.rom = s.rom) ∧
    ∀ (s : State) (n : Nat), romRead s n = romRead s (n % 64)

/-- Rule R61: RAM is written by STM and STP, by `program_reset` (which `full_reset` contains) and by `load`, and by
nothing else; its contents have an influence on LDM and LDP only; every address names one of 32 cells. -/
def Obligations.RamReadersAndWriters : Prop :=
  (∀ (i : Instr) (s : State), ∃ t, exec i s = .next t ∧
      (i.opcode ≠ .stm → i.opcode ≠ .stp → SameRam s t)) ∧
    (∀ (i : Instr) (s : State) (m : Ram), i.opcode ≠ .ldm → i.opcode ≠ .ldp →
      mapNext (fun t => { t with ram := [] }) (exec i { s with ram := m }) =
        mapNext (fun t => { t with ram := [] }) (exec i s)) ∧
    (∀ (cfg : Config) (e : HostEvent) (s t : State), (∀ a b, e ≠ .load a b) → perform cfg e s = .next t →
      (e = .programReset ∨ e = .fullReset → ∀ n, memRead t n = 0) ∧
      (e ≠ .cycle → e ≠ .programReset → e ≠ .fullReset → SameRam s t)) ∧
    ∀ (s : State) (n : Nat), memRead s n = memRead s (n % 32)

/-- Rule R40: the port latches influence nothing and nothing but a reset writes them, and a reset zeroes them. -/
def Obligations.PortsAreInert : Prop :=
  (∀ (cfg : Config) (e : HostEvent) (s : State) (p q : Vector Byte 8), e ≠ .programReset → e ≠ .fullReset →
      perform cfg e { s with inPort := p, outPort := q } =
        mapNext (fun t => { t with inPort := p, outPort := q }) (perform cfg e s)) ∧
    ∀ (cfg : Config) (s : State), ∃ t u, perform cfg .programReset s = .next t ∧ perform cfg .fullReset s = .next u ∧
      ∀ n, readIn t n = 0 ∧ readOut t n = 0 ∧ readIn u n = 0 ∧ readOut u n = 0

/-- No instruction reads the mode, the counter, the trace log, the last-touched indices or the model's own two fields,
and only HALT writes one of them, the mode (rules R35, R38, R42, R44). -/
def Obligations.NoInstructionReadsTheControlState : Prop :=
  ∀ (i : Instr) (s : State) (m : Mode) (tr : Vector TraceEntry 7) (n : Nat) (lt : LastTouched) (p : List HostEvent)
    (f : Nat),
    exec i { s with mode := m, trace := tr, icount := n, last := lt, pending := p, freeIdx := f } =
      mapNext (fun t => { t with
        mode := if i = .halt then .setup else m, trace := tr, icount := n, last := lt, pending := p, freeIdx := f })
        (exec i s)

/-- "No rule of the core reads `trace`, so its content cannot influence any other state" (rule R42): a step from two
states that differ in the log only has outcomes that differ in the log only. -/
def Obligations.TraceInfluencesNothing : Prop :=
  ∀ (cfg : Config) (s : State) (tr blank : Vector TraceEntry 7),
    mapNext (fun t => { t with trace := blank }) (stepWith cfg { s with trace := tr }) =
      mapNext (fun t => { t with trace := blank }) (stepWith cfg s)

/-- The two definitions of flag 4 in rule R143 agree with each other and with the model: the signed result does not fit,
and the carry (or borrow) of the low seven bits differs from flag 2's. The one for SUB is decision D5 (log 18). -/
def Obligations.SignedOverflowBothWays : Prop :=
  ∀ A B : Byte,
    let c7 := (A.toNat % 128 + B.toNat % 128).testBit 7
    let c := (A.toNat + B.toNat).testBit 8
    let b7 := (((A.toNat % 128 : Nat) - (B.toNat % 128 : Nat) : Int) % 256).toNat.testBit 7
    let b := (((A.toNat : Int) - (B.toNat : Int)) % 512).toNat.testBit 8
    addOverflow A.toNat B.toNat = (c7 ^^ c) ∧ subOverflow A.toNat B.toNat = (b7 ^^ b) ∧
      ((c7 ^^ c) = true ↔ A.toInt + B.toInt < -128 ∨ A.toInt + B.toInt > 127) ∧
      ((b7 ^^ b) = true ↔ A.toInt - B.toInt < -128 ∨ A.toInt - B.toInt > 127)

/-- Rule R174 (an inference of the spec's own, on decisions D4 and D7): LT after `CMP a, b` is C after `SUB d, a, b`,
EQ is Z, and exactly one of GT, LT, EQ is true. -/
def Obligations.CompareAgreesWithSubtract : Prop :=
  ∀ (d a b : Nat) (s : State), ∃ t u, exec (.cmp a b) s = .next t ∧ exec (.sub d a b) s = .next u ∧
    readFlag t 10 = readFlag u 2 ∧ readFlag t 12 = readFlag u 0 ∧
    ((readFlag t 8 = true ∧ readFlag t 10 = false ∧ readFlag t 12 = false) ∨
      (readFlag t 8 = false ∧ readFlag t 10 = true ∧ readFlag t 12 = false) ∨
      (readFlag t 8 = false ∧ readFlag t 10 = false ∧ readFlag t 12 = true))

/-- Rule R34 (an inference of the spec's own): the pairs (0,1) to (6,7) are complements after ADD and SUB, the pairs
(8,9) to (14,15) after CMP, but after AND, NOR, XOR and RSH both flags of (2,3) and of (4,5) are false, and after a
reset both flags of every pair are false except (14,15). -/
def Obligations.FlagPairsComplementOnlyWhereWritten : Prop :=
  (∀ (i : Instr) (s : State) (k : Nat), i.opcode = .add ∨ i.opcode = .sub → k < 4 →
      ∃ t, exec i s = .next t ∧ readFlag t (2 * k + 1) = !readFlag t (2 * k)) ∧
    (∀ (a b : Nat) (s : State) (k : Nat), 4 ≤ k → k < 8 →
      ∃ t, exec (.cmp a b) s = .next t ∧ readFlag t (2 * k + 1) = !readFlag t (2 * k)) ∧
    (∀ (i : Instr) (s : State) (k : Nat), i.opcode = .and ∨ i.opcode = .nor ∨ i.opcode = .xor ∨ i.opcode = .rsh →
      2 ≤ k → k < 6 → ∃ t, exec i s = .next t ∧ readFlag t k = false) ∧
    ∀ (cfg : Config) (s : State), ∃ t, perform cfg .programReset s = .next t ∧
      ∀ k, k < 16 → (readFlag t k = true ↔ k = 15)

/-- A store followed by a load of the same cell gives the value stored (rules R74, R77), directly under any two
addresses that name the cell and through one pointer. -/
def Obligations.StoreThenLoadGivesTheValue : Prop :=
  ∀ (s : State), Memory.wf 32 s.ram = true →
    (∀ src d addr addr' : Nat, addr % 32 = addr' % 32 →
      ∃ t u, exec (.stm src addr) s = .next t ∧ exec (.ldm d addr') t = .next u ∧ readReg u d = readReg s src) ∧
    ∀ p src d : Nat,
      ∃ t u, exec (.stp p src) s = .next t ∧ exec (.ldp d p) t = .next u ∧ readReg u d = readReg s src

/-- Rule R66 at the primitives: a write at index `n` lands at `n mod size`, truncated (rule R67), and changes no other
cell. -/
def Obligations.EveryWriteWrapsAndTruncates : Prop :=
  ∀ (s : State) (n v m : Nat), Memory.wf 64 s.rom = true → Memory.wf 32 s.ram = true →
    (readReg (writeReg s n v) m).toNat = (if m % 8 = n % 8 then v % 256 else (readReg s m).toNat) ∧
      (memRead (memWrite s n v) m).toNat = (if m % 32 = n % 32 then v % 256 else (memRead s m).toNat) ∧
      (romRead (romWrite s n v) m).toNat = (if m % 64 = n % 64 then v % 65536 else (romRead s m).toNat) ∧
      ∀ b : Bool, readFlag (writeFlag s n b) m = if m % 16 = n % 16 then b else readFlag s m

/-! ## The cycle -/

/-- A step whose next event is `cycle` in a run mode runs the instruction the word at the pc decodes to (rules R120,
R121), and adds around it: `icount` goes up by 1 (rule R120; the default counter is unbounded, log 3) and one trace entry
describing the instruction is pushed (rule R120; the token is log 6). Two clauses are the model's own: the event is no
longer pending (log 4, DESIGN CHOICE), and the last-touched indices become `touchedBy i s` (log 10, DEDUCED; rule R120
says only that the fetch marks ROM). -/
def Obligations.StepRunsTheDecodedInstruction : Prop :=
  ∀ (s : State) (i : Instr), s.mode ≠ .setup → nextEvent s = .cycle → decode (romRead s s.pc.toNat) = i →
    step s = mapNext
      (fun t => { t with
        icount := t.icount + 1, trace := pushEntry t.trace (.executed i), last := touchedBy i s })
      (exec i { s with pending := s.pending.tail })

/-- A word placed by `withFetchWord` is the one the very next step runs, from every state whose ROM is in canonical form.
That `withFetchWord` stands for the host's load and run command is the model's choice (log 5, DESIGN CHOICE). Around the
instruction the step does what a cycle does (rule R120): `icount` (log 3), one trace entry (the token is log 6), and the
last-touched indices, `touchedBy`, which are the model's reading (log 10, DEDUCED). -/
def Obligations.PlacedWordRunsNext : Prop :=
  ∀ (s : State) (w : Nat), w < 65536 → Memory.wf 64 s.rom = true →
    ∃ t, exec (decode (BitVec.ofNat 16 w)) (s.withFetchWord 16 w) = .next t ∧
      step (s.withFetchWord 16 w) = .next { t with
        icount := t.icount + 1
        trace := pushEntry t.trace (.executed (decode (BitVec.ofNat 16 w)))
        last := touchedBy (decode (BitVec.ofNat 16 w)) (s.withFetchWord 16 w) }

/-- Rule R220: from every state that satisfies the precondition a cycle answers a next state, whatever the
configuration, and no event has a fault outcome. -/
def Obligations.CycleAlwaysCompletes : Prop :=
  (∀ (cfg : Config) (s : State), s.mode ≠ .setup → ∃ t, cycle cfg s = .next t) ∧
    ∀ (cfg : Config) (e : HostEvent) (s : State) (f : Fault), perform cfg e s ≠ .fault f

/-- Every cycle adds exactly 1 to `icount` (for the unbounded counter, log 3) and pushes exactly one trace entry, whatever
the opcode (rule R123). That the newest entry is `.executed` of the instruction is the model's token for rule R120's "entry
describing the instruction" (log 6, decision D14): rule R123 leaves the entry's content opaque. -/
def Obligations.CycleCountsAndLogsOnce : Prop :=
  ∀ (cfg : Config) (s : State), s.mode ≠ .setup → cfg.cntWidth = none →
    ∃ t, cycle cfg s = .next t ∧ t.icount = s.icount + 1 ∧
      t.trace[6] = .executed (decodeWith cfg.twoNibbleLayout (romRead s s.pc.toNat)) ∧
      ∀ (k : Nat) (h : k < 6), t.trace[k] = s.trace[k + 1]

/-- `CNT_WIDTH` (rule R38, decision D12; log 3): with a width the counter is kept modulo its power of two. -/
def Obligations.CounterWidthWraps : Prop :=
  ∀ (cfg : Config) (k : Nat) (s : State), s.mode ≠ .setup → cfg.cntWidth = some k →
    ∃ t, cycle cfg s = .next t ∧ t.icount = (s.icount + 1) % 2 ^ k

/-- Rule R227: every instruction is executable, and a cycle behaves identically in ManualStep and in Automatic: the same
next state but for the mode, which each keeps unless the instruction is HALT. -/
def Obligations.CycleSameInBothRunModes : Prop :=
  (∀ (i : Instr) (s : State), ∃ t, exec i s = .next t) ∧
    ∀ (cfg : Config) (s : State),
      cycle cfg { s with mode := .automatic } =
        mapNext (fun t => { t with mode := if t.mode = .setup then .setup else .automatic })
          (cycle cfg { s with mode := .manualStep })

/-- Rule R124 (decision D10; log 2): by default a cycle in Setup is refused by its own name; under
`SETUP_CYCLE = execute` it runs as in a run mode and the mode stays Setup. -/
def Obligations.CycleInSetup : Prop :=
  (∀ s : State, s.mode = .setup → cycle Config.default s = .refused .cycleInSetup) ∧
    ∀ (cfg : Config) (s : State), cfg.setupCycle = .execute → s.mode = .setup →
      cycle cfg s = mapNext (fun t => { t with mode := .setup }) (cycle cfg { s with mode := .automatic })

/-- The last-touched indices (rule R44; the order within a cycle is the model's reading, log 10): a cycle leaves ROM's
at the pc, RAM's at the cell loaded or stored, the registers' at the register written; the ports' stay; a reset clears
all. -/
def Obligations.LastTouchedAfterEvents : Prop :=
  (∀ (cfg : Config) (s : State), s.mode ≠ .setup → ∃ t, cycle cfg s = .next t ∧
      t.last.rom = some s.pc.toNat ∧ t.last.inPort = s.last.inPort ∧ t.last.outPort = s.last.outPort ∧
      (∀ d, regWritten (decodeWith cfg.twoNibbleLayout (romRead s s.pc.toNat)) = some d → t.last.x = some (d % 8)) ∧
      match decodeWith cfg.twoNibbleLayout (romRead s s.pc.toNat) with
      | .ldm _ addr => t.last.ram = some (addr % 32)
      | .stm _ addr => t.last.ram = some (addr % 32)
      | .ldp _ p => t.last.ram = some ((readReg s p).toNat % 32)
      | .stp p _ => t.last.ram = some ((readReg s p).toNat % 32)
      | _ => t.last.ram = s.last.ram) ∧
    ∀ (cfg : Config) (s : State), ∃ t, perform cfg .programReset s = .next t ∧ t.last = LastTouched.none

/-! ## Modes and host commands -/

/-- The complete transition table of rule R235 under the defaults. Its self-loops are decision D9 (log 13), its refusals
D10 and D11 (logs 2 and 14). -/
def Obligations.ModeTransitionTable : Prop :=
  ∀ (s : State) (e : HostEvent),
    match nextMode s.mode e (decide (decode (romRead s s.pc.toNat) = .halt)) with
    | some m => ∃ t, perform Config.default e s = .next t ∧ t.mode = m
    | none => ∃ r, perform Config.default e s = .refused r

/-- Rule R233: from a run mode only HALT, executed by a cycle, and the two resets lead to Setup. -/
def Obligations.SetupOnlyByHaltOrReset : Prop :=
  ∀ (cfg : Config) (e : HostEvent) (s t : State), s.mode ≠ .setup → perform cfg e s = .next t → t.mode = .setup →
    e = .programReset ∨ e = .fullReset ∨
      (e = .cycle ∧ decodeWith cfg.twoNibbleLayout (romRead s s.pc.toNat) = .halt)

/-- Rules R231 and R232: the mode commands change the mode and nothing else, in particular they execute no instruction;
`request_manual_mode` is the step command too. The self-loops are decision D9 (log 13). -/
def Obligations.ModeCommandsChangeTheModeOnly : Prop :=
  ∀ (cfg : Config) (s : State),
    perform cfg .requestStep s = .next { s with mode := .manualStep } ∧
      perform cfg .requestManualMode s = .next { s with mode := .manualStep } ∧
      perform cfg .requestAutomaticMode s =
        .next { s with mode := if s.mode = .manualStep then .manualStep else .automatic }

/-- `program_reset` (rule R270), from every state in every mode. That the other six entries of the log are kept is rule
R46's row of the log (log 26, DEDUCED). The pushed entry is a token (log 6). That the host's pending events and the counter
of free choices stay is the model's choice (logs 4 and 8, DESIGN CHOICE). -/
def Obligations.ProgramResetEffect : Prop :=
  ∀ (cfg : Config) (s : State), ∃ t, perform cfg .programReset s = .next t ∧
    (∀ n, memRead t n = 0) ∧ (∀ n, readReg t n = 0) ∧ (∀ n, readIn t n = 0) ∧ (∀ n, readOut t n = 0) ∧
    (∀ k, k < 15 → readFlag t k = false) ∧ readFlag t 15 = true ∧ t.pc = 0 ∧ t.mode = .setup ∧ t.icount = 0 ∧
    t.trace[6] = .priorCount s.icount ∧ (∀ (k : Nat) (h : k < 6), t.trace[k] = s.trace[k + 1]) ∧
    t.last = LastTouched.none ∧ t.rom = s.rom ∧ t.pending = s.pending ∧ t.freeIdx = s.freeIdx

/-- `full_reset` (rule R271): ROM zeroed, every word a HALT, and otherwise what `program_reset` does. -/
def Obligations.FullResetEffect : Prop :=
  ∀ (cfg : Config) (s : State), ∃ t u, perform cfg .fullReset s = .next t ∧ perform cfg .programReset s = .next u ∧
    (∀ n, romRead t n = 0 ∧ decodeWith cfg.twoNibbleLayout (romRead t n) = .halt) ∧ t = { u with rom := t.rom }

/-- Rule R273: a second `program_reset` changes the trace log only, by an entry that records 0. -/
def Obligations.ResetTwiceIsResetOnce : Prop :=
  ∀ (cfg : Config) (s : State), ∃ t u, perform cfg .programReset s = .next t ∧ perform cfg .programReset t = .next u ∧
    u = { t with trace := u.trace } ∧ u.trace[6] = .priorCount 0 ∧ ∀ (k : Nat) (h : k < 6), u.trace[k] = t.trace[k + 1]

/-- Power-on (rules R46, R272) is the spec's decision D15 (log 11): `State.reset` holds the values of rule R46, and
`full_reset` from any state gives it but for the trace log and the model's own two fields. -/
def Obligations.PowerOnIsFullReset : Prop :=
  (∀ n, romRead State.reset n = 0 ∧ memRead State.reset n = 0 ∧ readReg State.reset n = 0 ∧ readIn State.reset n = 0 ∧
      readOut State.reset n = 0) ∧
    (∀ k, k < 16 → (readFlag State.reset k = true ↔ k = 15)) ∧
    State.reset.pc = 0 ∧ State.reset.mode = .setup ∧ State.reset.icount = 0 ∧
    ∀ (cfg : Config) (s : State), ∃ t, perform cfg .fullReset s = .next t ∧
      t = { State.reset with trace := t.trace, pending := s.pending, freeIdx := s.freeIdx }

/-! ## Program loading -/

/-- Rules R285 and R238 (decisions D11, D22; logs 14 and 23): `load` runs in Setup, is refused by name elsewhere, and
changes ROM, RAM, the log and the model's counter of free choices only; a missing ROM source leaves ROM, a missing RAM
source leaves RAM. -/
def Obligations.LoadChangesTheStoresOnly : Prop :=
  (∀ (cfg : Config) (rom ram : Option (List Char)) (s : State), s.mode = .setup →
      ∃ t, perform cfg (.load rom ram) s = .next t ∧
        t = { s with rom := t.rom, ram := t.ram, trace := t.trace, freeIdx := t.freeIdx } ∧
        (rom = none → t.rom = s.rom) ∧ (ram = none → t.ram = s.ram)) ∧
    ∀ (cfg : Config) (rom ram : Option (List Char)) (s : State), s.mode ≠ .setup →
      perform cfg (.load rom ram) s = .refused .loadOutsideSetup

/-- Loading is faithful (rules R286, R288, R72; the text conventions are decision D17, that nothing else is cleared is D22,
that each source is processed whatever the other holds is D23, all log 23): the text of an image of
at most 64 words, with an empty line where the image gives none, puts every word of the image at its index and leaves
every other word; the same for a RAM image of at most 32 cells, in the same `load`. -/
def Obligations.LoadedTextIsTheImage : Prop :=
  ∀ (cfg : Config) (romImg : List (Option Word)) (ramImg : List (Option Byte)) (s : State),
    romImg.length ≤ 64 → ramImg.length ≤ 32 → s.mode = .setup → Memory.wf 64 s.rom = true → Memory.wf 32 s.ram = true →
      ∃ t, perform cfg (.load (some (renderImage romImg)) (some (renderImage ramImg))) s = .next t ∧
        (∀ n, n < 64 → romRead t n = ((romImg[n]?).join).getD (romRead s n)) ∧
        ∀ n, n < 32 → memRead t n = ((ramImg[n]?).join).getD (memRead s n)

/-- The failure cases of the ROM source (rule R287). (1) The first malformed line stops it, keeping the words already
written, with corruption logged: the state is that of loading the lines before it alone, but for the log. (2) A missing
source is logged and ROM keeps its contents. In neither case does anything change but the ROM words already written and the
log. That the RAM source is processed all the same is rule R285 with the spec's decision D23, and the splitting into lines
is decision D17 (log 23). The log's entries are tokens (log 6), and `freeIdx` is the model's own (log 8). -/
def Obligations.MalformedRomLineStopsTheSource : Prop :=
  (∀ (cfg : Config) (before after : List (List Char)) (bad : List Char) (ram : Option (List Char)) (s : State),
      CleanLines 16 before → '\n' ∉ bad → MalformedLine 16 bad → s.mode = .setup →
        (∃ t u, perform cfg (.load (some (joinLines (before ++ bad :: after))) ram) s = .next t ∧
          perform cfg (.load (some (joinLines before)) ram) s = .next u ∧ t = { u with trace := t.trace } ∧
          (ram = none → t = { s with rom := t.rom, trace := t.trace, freeIdx := t.freeIdx })) ∧
        (loadRom (some (joinLines (before ++ bad :: after))) s).trace[6] = .romCorrupt) ∧
    (∀ (cfg : Config) (s : State), s.mode = .setup → ∃ t, perform cfg (.load none none) s = .next t ∧
      t = { s with trace := t.trace, freeIdx := t.freeIdx }) ∧
    ∀ s : State, loadRom none s = { s with trace := pushEntry s.trace .programNotFound }

/-- Rule R288 (decision D23; log 23): the RAM source has the same abort rule, with lines of 8 characters. -/
def Obligations.MalformedRamLineStopsTheSource : Prop :=
  ∀ (cfg : Config) (before after : List (List Char)) (bad : List Char) (rom : Option (List Char)) (s : State),
    CleanLines 8 before → '\n' ∉ bad → MalformedLine 8 bad → s.mode = .setup →
      ∃ t u, perform cfg (.load rom (some (joinLines (before ++ bad :: after)))) s = .next t ∧
        perform cfg (.load rom (some (joinLines before))) s = .next u ∧ t = { u with trace := t.trace }

/-! ## Invariants and safety -/

/-- Every step keeps the invariant: both memories canonical within their sizes, flag 14 false and flag 15 true (rule
R33), the port latches 0 (rule R40). -/
def Obligations.EveryStepKeepsTheInvariant : Prop :=
  (∀ s t : State, Machine.Inv s → step s = .next t → Machine.Inv t) ∧
    ∀ (cfg : Config) (s t : State), Machine.Inv s → stepWith cfg s = .next t → Machine.Inv t

/-- The power-on state has the invariant (log 11: the power-on values are decision D15). -/
def Obligations.PowerOnHasTheInvariant : Prop := Machine.Inv State.reset

/-- The idioms of rule R205, in every state with the invariant (rule R33): `BRC 14` only advances the pc, `BRC 15` is
JMP, `BRP 15` always goes to its register. -/
def Obligations.SentinelFlagIdioms : Prop :=
  ∀ (s : State), Machine.Inv s → ∀ addr p : Nat,
    (∃ t, exec (.brc 14 addr) s = .next t ∧ PcAdvanced s t ∧ t = { s with pc := t.pc }) ∧
      exec (.brc 15 addr) s = exec (.jmp addr) s ∧
      ∃ t, exec (.brp 15 p) s = .next t ∧ t.pc.toNat = (readReg s p).toNat % 64 ∧ t = { s with pc := t.pc }

/-- Under the defaults a step answers a next state exactly when the next event is one a conforming host issues (rules
R236, R238), and the two refusals have their own names (logs 2 and 14). -/
def Obligations.StepCompletesExactlyForConformingHosts : Prop :=
  ∀ s : State, ((∃ t, step s = .next t) ↔ conforming s = true) ∧
    ∀ r, step s = .refused r →
      (r = .cycleInSetup ∧ nextEvent s = .cycle ∧ s.mode = .setup) ∨
        (r = .loadOutsideSetup ∧ (∃ a b, nextEvent s = .load a b) ∧ s.mode ≠ .setup)

/-- "Every component of rule R20 is thus observable by the host" (rule R250): two states with the invariant, the same
snapshot and the same model's own fields are the same state. -/
def Obligations.SnapshotDeterminesTheState : Prop :=
  ∀ s t : State, Machine.Inv s → Machine.Inv t → snapshot s = snapshot t → s.pending = t.pending →
    s.freeIdx = t.freeIdx → s = t
end

