-- ==== Sys2Proof/Laws/Memory.lean ====
section
/-! SUPPORT. The laws of a memory: a read after a write, the canonical form, and that in canonical form equal contents
are equal data. -/

namespace Sys2Proof.Machine

theorem memory_read_nil {w : Nat} (a : Nat) : Memory.read ([] : Memory w) a = 0 := rfl

/-- Below the first address allowed, a canonical memory lists nothing. -/
theorem memory_read_below {w size lo : Nat} {m : Memory w} (h : Memory.wfFrom size lo m = true) {a : Nat}
    (ha : a < lo) : Memory.read m a = 0 := by
  induction m generalizing lo with
  | nil => rfl
  | cons c rest ih =>
    obtain ⟨k, v⟩ := c
    simp only [Memory.wfFrom, Bool.and_eq_true, decide_eq_true_eq] at h
    rw [Memory.read, if_neg (by omega)]
    exact ih h.2 (by omega)

/-- Outside its size, a canonical memory lists nothing. -/
theorem memory_read_above {w size lo : Nat} {m : Memory w} (h : Memory.wfFrom size lo m = true) {a : Nat}
    (ha : size ≤ a) : Memory.read m a = 0 := by
  induction m generalizing lo with
  | nil => rfl
  | cons c rest ih =>
    obtain ⟨k, v⟩ := c
    simp only [Memory.wfFrom, Bool.and_eq_true, decide_eq_true_eq] at h
    rw [Memory.read, if_neg (by omega)]
    exact ih h.2

theorem memory_wfFrom_mono {w size lo lo' : Nat} {m : Memory w} (h : Memory.wfFrom size lo m = true)
    (hl : lo' ≤ lo) : Memory.wfFrom size lo' m = true := by
  cases m with
  | nil => rfl
  | cons c rest =>
    obtain ⟨k, v⟩ := c
    simp only [Memory.wfFrom, Bool.and_eq_true, decide_eq_true_eq] at h ⊢
    exact ⟨⟨⟨by omega, h.1.1.2⟩, h.1.2⟩, h.2⟩

theorem memory_write_wfFrom {w size lo : Nat} {m : Memory w} (h : Memory.wfFrom size lo m = true) {a : Nat}
    (hl : lo ≤ a) (hs : a < size) (v : BitVec w) : Memory.wfFrom size lo (Memory.write m a v) = true := by
  induction m generalizing lo with
  | nil =>
    by_cases hv : v = 0
    · rw [Memory.write, if_pos hv]; rfl
    · rw [Memory.write, if_neg hv]
      simp only [Memory.wfFrom, Bool.and_eq_true, decide_eq_true_eq, bne_iff_ne]
      exact ⟨⟨⟨hl, hs⟩, hv⟩, trivial⟩
  | cons c rest ih =>
    obtain ⟨k, u⟩ := c
    have h0 := h
    simp only [Memory.wfFrom, Bool.and_eq_true, decide_eq_true_eq] at h
    rw [Memory.write]
    by_cases h1 : a < k
    · rw [if_pos h1]
      by_cases hv : v = 0
      · rw [if_pos hv]; exact h0
      · rw [if_neg hv]
        simp only [Memory.wfFrom, Bool.and_eq_true, decide_eq_true_eq]
        exact ⟨⟨⟨hl, hs⟩, by simpa using hv⟩, ⟨⟨by omega, h.1.1.2⟩, h.1.2⟩, h.2⟩
    · rw [if_neg h1]
      by_cases h2 : a = k
      · subst h2
        rw [if_pos rfl]
        by_cases hv : v = 0
        · rw [if_pos hv]; exact memory_wfFrom_mono h.2 (by omega)
        · rw [if_neg hv]
          simp only [Memory.wfFrom, Bool.and_eq_true, decide_eq_true_eq]
          exact ⟨⟨⟨hl, hs⟩, by simpa using hv⟩, h.2⟩
      · rw [if_neg h2]
        simp only [Memory.wfFrom, Bool.and_eq_true, decide_eq_true_eq]
        exact ⟨⟨⟨h.1.1.1, h.1.1.2⟩, h.1.2⟩, ih h.2 (by omega)⟩

/-- A write within the size keeps the canonical form. -/
theorem memory_write_wf {w size : Nat} {m : Memory w} (h : Memory.wf size m = true) {a : Nat} (hs : a < size)
    (v : BitVec w) : Memory.wf size (Memory.write m a v) = true :=
  memory_write_wfFrom h (Nat.zero_le a) hs v

theorem memory_read_write_from {w size lo : Nat} {m : Memory w} (h : Memory.wfFrom size lo m = true) (a b : Nat)
    (v : BitVec w) : Memory.read (Memory.write m a v) b = if b = a then v else Memory.read m b := by
  induction m generalizing lo with
  | nil =>
    by_cases hv : v = 0
    · rw [Memory.write, if_pos hv, memory_read_nil, hv, ite_self]
    · rw [Memory.write, if_neg hv]
      by_cases hb : b = a
      · simp only [Memory.read, if_pos hb, if_pos hb.symm]
      · simp only [Memory.read, if_neg hb, if_neg (Ne.symm hb)]
  | cons c rest ih =>
    obtain ⟨k, u⟩ := c
    have h0 := h
    simp only [Memory.wfFrom, Bool.and_eq_true, decide_eq_true_eq] at h
    have below : ∀ {b : Nat}, b ≤ k → Memory.read rest b = 0 := fun hb => memory_read_below h.2 (by omega)
    rw [Memory.write]
    by_cases h1 : a < k
    · rw [if_pos h1]
      by_cases hv : v = 0
      · rw [if_pos hv]
        by_cases hb : b = a
        · subst hb
          rw [if_pos rfl, hv, Memory.read, if_neg (by omega), below (by omega)]
        · rw [if_neg hb]
      · rw [if_neg hv, Memory.read]
        by_cases hb : b = a
        · rw [if_pos hb.symm, if_pos hb]
        · rw [if_neg (Ne.symm hb), if_neg hb]
    · rw [if_neg h1]
      by_cases h2 : a = k
      · subst h2
        rw [if_pos rfl]
        by_cases hb : b = a
        · subst hb
          by_cases hv : v = 0
          · rw [if_pos hv, if_pos rfl, below (le_refl _), hv]
          · rw [if_neg hv, Memory.read, if_pos rfl, if_pos rfl]
        · by_cases hv : v = 0
          · rw [if_pos hv, if_neg hb, Memory.read, if_neg (Ne.symm hb)]
          · rw [if_neg hv, if_neg hb, Memory.read, Memory.read, if_neg (Ne.symm hb), if_neg (Ne.symm hb)]
      · rw [if_neg h2, Memory.read, Memory.read]
        by_cases hk : k = b
        · subst hk
          rw [if_pos rfl, if_neg (by omega), if_pos rfl]
        · rw [if_neg hk, if_neg hk, ih h.2]

/-- A read after a write: the value written at the same address, the old one elsewhere. -/
theorem memory_read_write {w size : Nat} {m : Memory w} (h : Memory.wf size m = true) (a b : Nat) (v : BitVec w) :
    Memory.read (Memory.write m a v) b = if b = a then v else Memory.read m b :=
  memory_read_write_from h a b v

theorem memory_ext_from {w size lo : Nat} {m m' : Memory w} (h : Memory.wfFrom size lo m = true)
    (h' : Memory.wfFrom size lo m' = true) (e : ∀ a, Memory.read m a = Memory.read m' a) : m = m' := by
  induction m generalizing lo m' with
  | nil =>
    cases m' with
    | nil => rfl
    | cons c rest =>
      obtain ⟨k, v⟩ := c
      simp only [Memory.wfFrom, Bool.and_eq_true, bne_iff_ne] at h'
      exact absurd (by simpa [Memory.read] using (e k).symm) h'.1.2
  | cons c rest ih =>
    obtain ⟨k, v⟩ := c
    have h0 := h
    simp only [Memory.wfFrom, Bool.and_eq_true, bne_iff_ne, decide_eq_true_eq] at h
    cases m' with
    | nil => exact absurd (by simpa [Memory.read] using e k) h.1.2
    | cons c' rest' =>
      obtain ⟨k', v'⟩ := c'
      have h0' := h'
      simp only [Memory.wfFrom, Bool.and_eq_true, bne_iff_ne, decide_eq_true_eq] at h'
      have hk : k = k' := by
        rcases Nat.lt_trichotomy k k' with hlt | heq | hgt
        · have := e k
          rw [Memory.read, if_pos rfl, Memory.read, if_neg (by omega), memory_read_below h'.2 (by omega)] at this
          exact absurd this h.1.2
        · exact heq
        · have := e k'
          rw [Memory.read, if_neg (by omega), memory_read_below h.2 (by omega), Memory.read, if_pos rfl] at this
          exact absurd this.symm h'.1.2
      subst hk
      have hv : v = v' := by simpa [Memory.read] using e k
      subst hv
      have hr : rest = rest' := by
        refine ih h.2 h'.2 fun a => ?_
        by_cases ha : k = a
        · subst ha
          rw [memory_read_below h.2 (by omega), memory_read_below h'.2 (by omega)]
        · simpa [Memory.read, ha] using e a
      rw [hr]

/-- In canonical form, memories that read the same are the same. -/
theorem memory_ext {w size : Nat} {m m' : Memory w} (h : Memory.wf size m = true) (h' : Memory.wf size m' = true)
    (e : ∀ a, a < size → Memory.read m a = Memory.read m' a) : m = m' := by
  refine memory_ext_from h h' fun a => ?_
  by_cases ha : a < size
  · exact e a ha
  · rw [memory_read_above h (by omega), memory_read_above h' (by omega)]

end Sys2Proof.Machine
end

