-- ==== Sys2Proof/Laws/State.lean ====
section
/-! SUPPORT. What each named operation does to each field of State, and to what the accessors read. A lemma per field
and operation, so that no proof unfolds a record update. -/

-- The theorems are many and each is `rfl`: elaborating them one after another keeps Lean's threads few.
set_option Elab.async false

namespace Sys2Proof.Machine

/-! ### `romWrite` (rule R63) -/

@[simp] theorem romWrite_rom (s : State) (i v : Nat) : (romWrite s i v).rom = Memory.write s.rom (i % 64) (BitVec.ofNat 16 v) := rfl
@[simp] theorem romWrite_ram (s : State) (i v : Nat) : (romWrite s i v).ram = s.ram := rfl
@[simp] theorem romWrite_x (s : State) (i v : Nat) : (romWrite s i v).x = s.x := rfl
@[simp] theorem romWrite_inPort (s : State) (i v : Nat) : (romWrite s i v).inPort = s.inPort := rfl
@[simp] theorem romWrite_outPort (s : State) (i v : Nat) : (romWrite s i v).outPort = s.outPort := rfl
@[simp] theorem romWrite_flag (s : State) (i v : Nat) : (romWrite s i v).flag = s.flag := rfl
@[simp] theorem romWrite_pc (s : State) (i v : Nat) : (romWrite s i v).pc = s.pc := rfl
@[simp] theorem romWrite_mode (s : State) (i v : Nat) : (romWrite s i v).mode = s.mode := rfl
@[simp] theorem romWrite_trace (s : State) (i v : Nat) : (romWrite s i v).trace = s.trace := rfl
@[simp] theorem romWrite_icount (s : State) (i v : Nat) : (romWrite s i v).icount = s.icount := rfl
@[simp] theorem romWrite_last (s : State) (i v : Nat) : (romWrite s i v).last = s.last := rfl
@[simp] theorem romWrite_pending (s : State) (i v : Nat) : (romWrite s i v).pending = s.pending := rfl
@[simp] theorem romWrite_freeIdx (s : State) (i v : Nat) : (romWrite s i v).freeIdx = s.freeIdx := rfl
@[simp] theorem memRead_romWrite (s : State) (i v : Nat) (n : Nat) : memRead (romWrite s i v) n = memRead s n := rfl
@[simp] theorem readReg_romWrite (s : State) (i v : Nat) (n : Nat) : readReg (romWrite s i v) n = readReg s n := rfl
@[simp] theorem readFlag_romWrite (s : State) (i v : Nat) (n : Nat) : readFlag (romWrite s i v) n = readFlag s n := rfl
@[simp] theorem readIn_romWrite (s : State) (i v : Nat) (n : Nat) : readIn (romWrite s i v) n = readIn s n := rfl
@[simp] theorem readOut_romWrite (s : State) (i v : Nat) (n : Nat) : readOut (romWrite s i v) n = readOut s n := rfl

/-! ### `memWrite` (rule R65) -/

@[simp] theorem memWrite_rom (s : State) (a v : Nat) : (memWrite s a v).rom = s.rom := rfl
@[simp] theorem memWrite_ram (s : State) (a v : Nat) : (memWrite s a v).ram = Memory.write s.ram (a % 32) (BitVec.ofNat 8 v) := rfl
@[simp] theorem memWrite_x (s : State) (a v : Nat) : (memWrite s a v).x = s.x := rfl
@[simp] theorem memWrite_inPort (s : State) (a v : Nat) : (memWrite s a v).inPort = s.inPort := rfl
@[simp] theorem memWrite_outPort (s : State) (a v : Nat) : (memWrite s a v).outPort = s.outPort := rfl
@[simp] theorem memWrite_flag (s : State) (a v : Nat) : (memWrite s a v).flag = s.flag := rfl
@[simp] theorem memWrite_pc (s : State) (a v : Nat) : (memWrite s a v).pc = s.pc := rfl
@[simp] theorem memWrite_mode (s : State) (a v : Nat) : (memWrite s a v).mode = s.mode := rfl
@[simp] theorem memWrite_trace (s : State) (a v : Nat) : (memWrite s a v).trace = s.trace := rfl
@[simp] theorem memWrite_icount (s : State) (a v : Nat) : (memWrite s a v).icount = s.icount := rfl
@[simp] theorem memWrite_last (s : State) (a v : Nat) : (memWrite s a v).last = s.last := rfl
@[simp] theorem memWrite_pending (s : State) (a v : Nat) : (memWrite s a v).pending = s.pending := rfl
@[simp] theorem memWrite_freeIdx (s : State) (a v : Nat) : (memWrite s a v).freeIdx = s.freeIdx := rfl
@[simp] theorem romRead_memWrite (s : State) (a v : Nat) (n : Nat) : romRead (memWrite s a v) n = romRead s n := rfl
@[simp] theorem readReg_memWrite (s : State) (a v : Nat) (n : Nat) : readReg (memWrite s a v) n = readReg s n := rfl
@[simp] theorem readFlag_memWrite (s : State) (a v : Nat) (n : Nat) : readFlag (memWrite s a v) n = readFlag s n := rfl
@[simp] theorem readIn_memWrite (s : State) (a v : Nat) (n : Nat) : readIn (memWrite s a v) n = readIn s n := rfl
@[simp] theorem readOut_memWrite (s : State) (a v : Nat) (n : Nat) : readOut (memWrite s a v) n = readOut s n := rfl

/-! ### `writeReg` (rule R22) -/

@[simp] theorem writeReg_rom (s : State) (i v : Nat) : (writeReg s i v).rom = s.rom := rfl
@[simp] theorem writeReg_ram (s : State) (i v : Nat) : (writeReg s i v).ram = s.ram := rfl
@[simp] theorem writeReg_x (s : State) (i v : Nat) : (writeReg s i v).x = s.x.set (i % 8) (BitVec.ofNat 8 v) (Nat.mod_lt _ (by decide)) := rfl
@[simp] theorem writeReg_inPort (s : State) (i v : Nat) : (writeReg s i v).inPort = s.inPort := rfl
@[simp] theorem writeReg_outPort (s : State) (i v : Nat) : (writeReg s i v).outPort = s.outPort := rfl
@[simp] theorem writeReg_flag (s : State) (i v : Nat) : (writeReg s i v).flag = s.flag := rfl
@[simp] theorem writeReg_pc (s : State) (i v : Nat) : (writeReg s i v).pc = s.pc := rfl
@[simp] theorem writeReg_mode (s : State) (i v : Nat) : (writeReg s i v).mode = s.mode := rfl
@[simp] theorem writeReg_trace (s : State) (i v : Nat) : (writeReg s i v).trace = s.trace := rfl
@[simp] theorem writeReg_icount (s : State) (i v : Nat) : (writeReg s i v).icount = s.icount := rfl
@[simp] theorem writeReg_last (s : State) (i v : Nat) : (writeReg s i v).last = s.last := rfl
@[simp] theorem writeReg_pending (s : State) (i v : Nat) : (writeReg s i v).pending = s.pending := rfl
@[simp] theorem writeReg_freeIdx (s : State) (i v : Nat) : (writeReg s i v).freeIdx = s.freeIdx := rfl
@[simp] theorem romRead_writeReg (s : State) (i v : Nat) (n : Nat) : romRead (writeReg s i v) n = romRead s n := rfl
@[simp] theorem memRead_writeReg (s : State) (i v : Nat) (n : Nat) : memRead (writeReg s i v) n = memRead s n := rfl
@[simp] theorem readFlag_writeReg (s : State) (i v : Nat) (n : Nat) : readFlag (writeReg s i v) n = readFlag s n := rfl
@[simp] theorem readIn_writeReg (s : State) (i v : Nat) (n : Nat) : readIn (writeReg s i v) n = readIn s n := rfl
@[simp] theorem readOut_writeReg (s : State) (i v : Nat) (n : Nat) : readOut (writeReg s i v) n = readOut s n := rfl

/-! ### `writeFlag` (rule R30) -/

@[simp] theorem writeFlag_rom (s : State) (k : Nat) (p : Bool) : (writeFlag s k p).rom = s.rom := rfl
@[simp] theorem writeFlag_ram (s : State) (k : Nat) (p : Bool) : (writeFlag s k p).ram = s.ram := rfl
@[simp] theorem writeFlag_x (s : State) (k : Nat) (p : Bool) : (writeFlag s k p).x = s.x := rfl
@[simp] theorem writeFlag_inPort (s : State) (k : Nat) (p : Bool) : (writeFlag s k p).inPort = s.inPort := rfl
@[simp] theorem writeFlag_outPort (s : State) (k : Nat) (p : Bool) : (writeFlag s k p).outPort = s.outPort := rfl
@[simp] theorem writeFlag_flag (s : State) (k : Nat) (p : Bool) : (writeFlag s k p).flag = s.flag.set (k % 16) p (Nat.mod_lt _ (by decide)) := rfl
@[simp] theorem writeFlag_pc (s : State) (k : Nat) (p : Bool) : (writeFlag s k p).pc = s.pc := rfl
@[simp] theorem writeFlag_mode (s : State) (k : Nat) (p : Bool) : (writeFlag s k p).mode = s.mode := rfl
@[simp] theorem writeFlag_trace (s : State) (k : Nat) (p : Bool) : (writeFlag s k p).trace = s.trace := rfl
@[simp] theorem writeFlag_icount (s : State) (k : Nat) (p : Bool) : (writeFlag s k p).icount = s.icount := rfl
@[simp] theorem writeFlag_last (s : State) (k : Nat) (p : Bool) : (writeFlag s k p).last = s.last := rfl
@[simp] theorem writeFlag_pending (s : State) (k : Nat) (p : Bool) : (writeFlag s k p).pending = s.pending := rfl
@[simp] theorem writeFlag_freeIdx (s : State) (k : Nat) (p : Bool) : (writeFlag s k p).freeIdx = s.freeIdx := rfl
@[simp] theorem romRead_writeFlag (s : State) (k : Nat) (p : Bool) (n : Nat) : romRead (writeFlag s k p) n = romRead s n := rfl
@[simp] theorem memRead_writeFlag (s : State) (k : Nat) (p : Bool) (n : Nat) : memRead (writeFlag s k p) n = memRead s n := rfl
@[simp] theorem readReg_writeFlag (s : State) (k : Nat) (p : Bool) (n : Nat) : readReg (writeFlag s k p) n = readReg s n := rfl
@[simp] theorem readIn_writeFlag (s : State) (k : Nat) (p : Bool) (n : Nat) : readIn (writeFlag s k p) n = readIn s n := rfl
@[simp] theorem readOut_writeFlag (s : State) (k : Nat) (p : Bool) (n : Nat) : readOut (writeFlag s k p) n = readOut s n := rfl

/-! ### `setPc` (rule R26) -/

@[simp] theorem setPc_rom (s : State) (t : Nat) : (setPc s t).rom = s.rom := rfl
@[simp] theorem setPc_ram (s : State) (t : Nat) : (setPc s t).ram = s.ram := rfl
@[simp] theorem setPc_x (s : State) (t : Nat) : (setPc s t).x = s.x := rfl
@[simp] theorem setPc_inPort (s : State) (t : Nat) : (setPc s t).inPort = s.inPort := rfl
@[simp] theorem setPc_outPort (s : State) (t : Nat) : (setPc s t).outPort = s.outPort := rfl
@[simp] theorem setPc_flag (s : State) (t : Nat) : (setPc s t).flag = s.flag := rfl
@[simp] theorem setPc_pc (s : State) (t : Nat) : (setPc s t).pc = BitVec.ofNat 6 t := rfl
@[simp] theorem setPc_mode (s : State) (t : Nat) : (setPc s t).mode = s.mode := rfl
@[simp] theorem setPc_trace (s : State) (t : Nat) : (setPc s t).trace = s.trace := rfl
@[simp] theorem setPc_icount (s : State) (t : Nat) : (setPc s t).icount = s.icount := rfl
@[simp] theorem setPc_last (s : State) (t : Nat) : (setPc s t).last = s.last := rfl
@[simp] theorem setPc_pending (s : State) (t : Nat) : (setPc s t).pending = s.pending := rfl
@[simp] theorem setPc_freeIdx (s : State) (t : Nat) : (setPc s t).freeIdx = s.freeIdx := rfl
@[simp] theorem romRead_setPc (s : State) (t : Nat) (n : Nat) : romRead (setPc s t) n = romRead s n := rfl
@[simp] theorem memRead_setPc (s : State) (t : Nat) (n : Nat) : memRead (setPc s t) n = memRead s n := rfl
@[simp] theorem readReg_setPc (s : State) (t : Nat) (n : Nat) : readReg (setPc s t) n = readReg s n := rfl
@[simp] theorem readFlag_setPc (s : State) (t : Nat) (n : Nat) : readFlag (setPc s t) n = readFlag s n := rfl
@[simp] theorem readIn_setPc (s : State) (t : Nat) (n : Nat) : readIn (setPc s t) n = readIn s n := rfl
@[simp] theorem readOut_setPc (s : State) (t : Nat) (n : Nat) : readOut (setPc s t) n = readOut s n := rfl

/-! ### `advancePc` (rule R26) -/

@[simp] theorem advancePc_rom (s : State) : (advancePc s).rom = s.rom := rfl
@[simp] theorem advancePc_ram (s : State) : (advancePc s).ram = s.ram := rfl
@[simp] theorem advancePc_x (s : State) : (advancePc s).x = s.x := rfl
@[simp] theorem advancePc_inPort (s : State) : (advancePc s).inPort = s.inPort := rfl
@[simp] theorem advancePc_outPort (s : State) : (advancePc s).outPort = s.outPort := rfl
@[simp] theorem advancePc_flag (s : State) : (advancePc s).flag = s.flag := rfl
@[simp] theorem advancePc_pc (s : State) : (advancePc s).pc = BitVec.ofNat 6 (s.pc.toNat + 1) := rfl
@[simp] theorem advancePc_mode (s : State) : (advancePc s).mode = s.mode := rfl
@[simp] theorem advancePc_trace (s : State) : (advancePc s).trace = s.trace := rfl
@[simp] theorem advancePc_icount (s : State) : (advancePc s).icount = s.icount := rfl
@[simp] theorem advancePc_last (s : State) : (advancePc s).last = s.last := rfl
@[simp] theorem advancePc_pending (s : State) : (advancePc s).pending = s.pending := rfl
@[simp] theorem advancePc_freeIdx (s : State) : (advancePc s).freeIdx = s.freeIdx := rfl
@[simp] theorem romRead_advancePc (s : State) (n : Nat) : romRead (advancePc s) n = romRead s n := rfl
@[simp] theorem memRead_advancePc (s : State) (n : Nat) : memRead (advancePc s) n = memRead s n := rfl
@[simp] theorem readReg_advancePc (s : State) (n : Nat) : readReg (advancePc s) n = readReg s n := rfl
@[simp] theorem readFlag_advancePc (s : State) (n : Nat) : readFlag (advancePc s) n = readFlag s n := rfl
@[simp] theorem readIn_advancePc (s : State) (n : Nat) : readIn (advancePc s) n = readIn s n := rfl
@[simp] theorem readOut_advancePc (s : State) (n : Nat) : readOut (advancePc s) n = readOut s n := rfl

/-! ### `setMode` (rule R35) -/

@[simp] theorem setMode_rom (s : State) (m : Mode) : (setMode s m).rom = s.rom := rfl
@[simp] theorem setMode_ram (s : State) (m : Mode) : (setMode s m).ram = s.ram := rfl
@[simp] theorem setMode_x (s : State) (m : Mode) : (setMode s m).x = s.x := rfl
@[simp] theorem setMode_inPort (s : State) (m : Mode) : (setMode s m).inPort = s.inPort := rfl
@[simp] theorem setMode_outPort (s : State) (m : Mode) : (setMode s m).outPort = s.outPort := rfl
@[simp] theorem setMode_flag (s : State) (m : Mode) : (setMode s m).flag = s.flag := rfl
@[simp] theorem setMode_pc (s : State) (m : Mode) : (setMode s m).pc = s.pc := rfl
@[simp] theorem setMode_mode (s : State) (m : Mode) : (setMode s m).mode = m := rfl
@[simp] theorem setMode_trace (s : State) (m : Mode) : (setMode s m).trace = s.trace := rfl
@[simp] theorem setMode_icount (s : State) (m : Mode) : (setMode s m).icount = s.icount := rfl
@[simp] theorem setMode_last (s : State) (m : Mode) : (setMode s m).last = s.last := rfl
@[simp] theorem setMode_pending (s : State) (m : Mode) : (setMode s m).pending = s.pending := rfl
@[simp] theorem setMode_freeIdx (s : State) (m : Mode) : (setMode s m).freeIdx = s.freeIdx := rfl
@[simp] theorem romRead_setMode (s : State) (m : Mode) (n : Nat) : romRead (setMode s m) n = romRead s n := rfl
@[simp] theorem memRead_setMode (s : State) (m : Mode) (n : Nat) : memRead (setMode s m) n = memRead s n := rfl
@[simp] theorem readReg_setMode (s : State) (m : Mode) (n : Nat) : readReg (setMode s m) n = readReg s n := rfl
@[simp] theorem readFlag_setMode (s : State) (m : Mode) (n : Nat) : readFlag (setMode s m) n = readFlag s n := rfl
@[simp] theorem readIn_setMode (s : State) (m : Mode) (n : Nat) : readIn (setMode s m) n = readIn s n := rfl
@[simp] theorem readOut_setMode (s : State) (m : Mode) (n : Nat) : readOut (setMode s m) n = readOut s n := rfl

/-! ### `pushTrace` (rule R42) -/

@[simp] theorem pushTrace_rom (s : State) (e : TraceEntry) : (pushTrace s e).rom = s.rom := rfl
@[simp] theorem pushTrace_ram (s : State) (e : TraceEntry) : (pushTrace s e).ram = s.ram := rfl
@[simp] theorem pushTrace_x (s : State) (e : TraceEntry) : (pushTrace s e).x = s.x := rfl
@[simp] theorem pushTrace_inPort (s : State) (e : TraceEntry) : (pushTrace s e).inPort = s.inPort := rfl
@[simp] theorem pushTrace_outPort (s : State) (e : TraceEntry) : (pushTrace s e).outPort = s.outPort := rfl
@[simp] theorem pushTrace_flag (s : State) (e : TraceEntry) : (pushTrace s e).flag = s.flag := rfl
@[simp] theorem pushTrace_pc (s : State) (e : TraceEntry) : (pushTrace s e).pc = s.pc := rfl
@[simp] theorem pushTrace_mode (s : State) (e : TraceEntry) : (pushTrace s e).mode = s.mode := rfl
@[simp] theorem pushTrace_trace (s : State) (e : TraceEntry) : (pushTrace s e).trace = pushEntry s.trace e := rfl
@[simp] theorem pushTrace_icount (s : State) (e : TraceEntry) : (pushTrace s e).icount = s.icount := rfl
@[simp] theorem pushTrace_last (s : State) (e : TraceEntry) : (pushTrace s e).last = s.last := rfl
@[simp] theorem pushTrace_pending (s : State) (e : TraceEntry) : (pushTrace s e).pending = s.pending := rfl
@[simp] theorem pushTrace_freeIdx (s : State) (e : TraceEntry) : (pushTrace s e).freeIdx = s.freeIdx := rfl
@[simp] theorem romRead_pushTrace (s : State) (e : TraceEntry) (n : Nat) : romRead (pushTrace s e) n = romRead s n := rfl
@[simp] theorem memRead_pushTrace (s : State) (e : TraceEntry) (n : Nat) : memRead (pushTrace s e) n = memRead s n := rfl
@[simp] theorem readReg_pushTrace (s : State) (e : TraceEntry) (n : Nat) : readReg (pushTrace s e) n = readReg s n := rfl
@[simp] theorem readFlag_pushTrace (s : State) (e : TraceEntry) (n : Nat) : readFlag (pushTrace s e) n = readFlag s n := rfl
@[simp] theorem readIn_pushTrace (s : State) (e : TraceEntry) (n : Nat) : readIn (pushTrace s e) n = readIn s n := rfl
@[simp] theorem readOut_pushTrace (s : State) (e : TraceEntry) (n : Nat) : readOut (pushTrace s e) n = readOut s n := rfl

/-! ### `pushLoadReports` (rule R291) -/

@[simp] theorem pushLoadReports_rom (s : State) : (pushLoadReports s).rom = s.rom := rfl
@[simp] theorem pushLoadReports_ram (s : State) : (pushLoadReports s).ram = s.ram := rfl
@[simp] theorem pushLoadReports_x (s : State) : (pushLoadReports s).x = s.x := rfl
@[simp] theorem pushLoadReports_inPort (s : State) : (pushLoadReports s).inPort = s.inPort := rfl
@[simp] theorem pushLoadReports_outPort (s : State) : (pushLoadReports s).outPort = s.outPort := rfl
@[simp] theorem pushLoadReports_flag (s : State) : (pushLoadReports s).flag = s.flag := rfl
@[simp] theorem pushLoadReports_pc (s : State) : (pushLoadReports s).pc = s.pc := rfl
@[simp] theorem pushLoadReports_mode (s : State) : (pushLoadReports s).mode = s.mode := rfl
@[simp] theorem pushLoadReports_trace (s : State) : (pushLoadReports s).trace = pushEntries s.trace .loadReport (Config.extraLoadEntries s.freeIdx) := rfl
@[simp] theorem pushLoadReports_icount (s : State) : (pushLoadReports s).icount = s.icount := rfl
@[simp] theorem pushLoadReports_last (s : State) : (pushLoadReports s).last = s.last := rfl
@[simp] theorem pushLoadReports_pending (s : State) : (pushLoadReports s).pending = s.pending := rfl
@[simp] theorem pushLoadReports_freeIdx (s : State) : (pushLoadReports s).freeIdx = s.freeIdx + 1 := rfl
@[simp] theorem romRead_pushLoadReports (s : State) (n : Nat) : romRead (pushLoadReports s) n = romRead s n := rfl
@[simp] theorem memRead_pushLoadReports (s : State) (n : Nat) : memRead (pushLoadReports s) n = memRead s n := rfl
@[simp] theorem readReg_pushLoadReports (s : State) (n : Nat) : readReg (pushLoadReports s) n = readReg s n := rfl
@[simp] theorem readFlag_pushLoadReports (s : State) (n : Nat) : readFlag (pushLoadReports s) n = readFlag s n := rfl
@[simp] theorem readIn_pushLoadReports (s : State) (n : Nat) : readIn (pushLoadReports s) n = readIn s n := rfl
@[simp] theorem readOut_pushLoadReports (s : State) (n : Nat) : readOut (pushLoadReports s) n = readOut s n := rfl

/-! ### `writeFlags` (rule R30) -/

@[simp] theorem writeFlags_rom (s : State) (k : Nat) (ps : List Bool) : (writeFlags s k ps).rom = s.rom := rfl
@[simp] theorem writeFlags_ram (s : State) (k : Nat) (ps : List Bool) : (writeFlags s k ps).ram = s.ram := rfl
@[simp] theorem writeFlags_x (s : State) (k : Nat) (ps : List Bool) : (writeFlags s k ps).x = s.x := rfl
@[simp] theorem writeFlags_inPort (s : State) (k : Nat) (ps : List Bool) : (writeFlags s k ps).inPort = s.inPort := rfl
@[simp] theorem writeFlags_outPort (s : State) (k : Nat) (ps : List Bool) : (writeFlags s k ps).outPort = s.outPort := rfl
@[simp] theorem writeFlags_flag (s : State) (k : Nat) (ps : List Bool) : (writeFlags s k ps).flag = putFlags s.flag k ps := rfl
@[simp] theorem writeFlags_pc (s : State) (k : Nat) (ps : List Bool) : (writeFlags s k ps).pc = s.pc := rfl
@[simp] theorem writeFlags_mode (s : State) (k : Nat) (ps : List Bool) : (writeFlags s k ps).mode = s.mode := rfl
@[simp] theorem writeFlags_trace (s : State) (k : Nat) (ps : List Bool) : (writeFlags s k ps).trace = s.trace := rfl
@[simp] theorem writeFlags_icount (s : State) (k : Nat) (ps : List Bool) : (writeFlags s k ps).icount = s.icount := rfl
@[simp] theorem writeFlags_last (s : State) (k : Nat) (ps : List Bool) : (writeFlags s k ps).last = s.last := rfl
@[simp] theorem writeFlags_pending (s : State) (k : Nat) (ps : List Bool) : (writeFlags s k ps).pending = s.pending := rfl
@[simp] theorem writeFlags_freeIdx (s : State) (k : Nat) (ps : List Bool) : (writeFlags s k ps).freeIdx = s.freeIdx := rfl
@[simp] theorem romRead_writeFlags (s : State) (k : Nat) (ps : List Bool) (n : Nat) : romRead (writeFlags s k ps) n = romRead s n := rfl
@[simp] theorem memRead_writeFlags (s : State) (k : Nat) (ps : List Bool) (n : Nat) : memRead (writeFlags s k ps) n = memRead s n := rfl
@[simp] theorem readReg_writeFlags (s : State) (k : Nat) (ps : List Bool) (n : Nat) : readReg (writeFlags s k ps) n = readReg s n := rfl
@[simp] theorem readIn_writeFlags (s : State) (k : Nat) (ps : List Bool) (n : Nat) : readIn (writeFlags s k ps) n = readIn s n := rfl
@[simp] theorem readOut_writeFlags (s : State) (k : Nat) (ps : List Bool) (n : Nat) : readOut (writeFlags s k ps) n = readOut s n := rfl

end Sys2Proof.Machine
end

