-- ==== Sys2Proof/Laws/Ops.lean ====
section
/-! SUPPORT. What an access reads after a write to the same store (rules R22, R30, R63, R65, R66), and what the shared
operations of the families do. -/

namespace Sys2Proof.Machine

/-! ### Registers, flags, ROM, RAM -/

theorem readReg_mod (s : State) (i : Nat) : readReg s (i % 8) = readReg s i := by
  simp only [readReg, Nat.mod_mod]

theorem readFlag_mod (s : State) (k : Nat) : readFlag s (k % 16) = readFlag s k := by
  simp only [readFlag, Nat.mod_mod]

theorem readReg_writeReg (s : State) (i v j : Nat) :
    readReg (writeReg s i v) j = if j % 8 = i % 8 then BitVec.ofNat 8 v else readReg s j := by
  simp [readReg, Vector.getElem_set, eq_comm]

theorem readFlag_writeFlag (s : State) (k : Nat) (p : Bool) (j : Nat) :
    readFlag (writeFlag s k p) j = if j % 16 = k % 16 then p else readFlag s j := by
  simp [readFlag, Vector.getElem_set, eq_comm]

/-- `putFlags` within the bank: the flags from `k` on take the list's values, the others keep theirs. -/
theorem putFlags_get (f : Vector Bool 16) (k : Nat) (ps : List Bool) (h : k + ps.length ≤ 16) (j : Nat) (hj : j < 16) :
    (putFlags f k ps)[j] = if k ≤ j then (ps[j - k]?).getD f[j] else f[j] := by
  induction ps generalizing f k with
  | nil => simp [putFlags]
  | cons p ps ih =>
    rw [List.length_cons] at h
    rw [putFlags, ih _ (k + 1) (by omega), Vector.getElem_set]
    have hk : k % 16 = k := Nat.mod_eq_of_lt (by omega)
    rcases Nat.lt_trichotomy j k with hlt | heq | hgt
    · rw [if_neg (by omega), if_neg (by omega), if_neg (by omega)]
    · rw [if_neg (by omega), if_pos (by omega), if_pos (by omega)]
      simp [heq]
    · obtain ⟨d, rfl⟩ : ∃ d, j = k + 1 + d := ⟨j - (k + 1), by omega⟩
      rw [if_pos (by omega), if_neg (by omega), if_pos (by omega)]
      simp [show k + 1 + d - (k + 1) = d by omega, show k + 1 + d - k = d + 1 by omega]

/-- `writeFlags` within the bank, read back. -/
theorem readFlag_writeFlags (s : State) (k : Nat) (ps : List Bool) (h : k + ps.length ≤ 16) (j : Nat) :
    readFlag (writeFlags s k ps) j =
      if k ≤ j % 16 then (ps[j % 16 - k]?).getD (readFlag s j) else readFlag s j :=
  putFlags_get s.flag k ps h (j % 16) (Nat.mod_lt _ (by decide))

theorem memRead_mod (s : State) (a : Nat) : memRead s (a % 32) = memRead s a := by
  simp only [memRead, Nat.mod_mod]

theorem romRead_mod (s : State) (i : Nat) : romRead s (i % 64) = romRead s i := by
  simp only [romRead, Nat.mod_mod]

theorem memRead_memWrite {s : State} (h : Memory.wf 32 s.ram = true) (a v b : Nat) :
    memRead (memWrite s a v) b = if b % 32 = a % 32 then BitVec.ofNat 8 v else memRead s b :=
  memory_read_write h (a % 32) (b % 32) (BitVec.ofNat 8 v)

theorem romRead_romWrite {s : State} (h : Memory.wf 64 s.rom = true) (i v j : Nat) :
    romRead (romWrite s i v) j = if j % 64 = i % 64 then BitVec.ofNat 16 v else romRead s j :=
  memory_read_write h (i % 64) (j % 64) (BitVec.ofNat 16 v)

theorem memWrite_wf {s : State} (h : Memory.wf 32 s.ram = true) (a v : Nat) :
    Memory.wf 32 (memWrite s a v).ram = true :=
  memory_write_wf h (Nat.mod_lt _ (by decide)) _

theorem romWrite_wf {s : State} (h : Memory.wf 64 s.rom = true) (i v : Nat) :
    Memory.wf 64 (romWrite s i v).rom = true :=
  memory_write_wf h (Nat.mod_lt _ (by decide)) _

/-! ### The pc and the trace log -/

theorem setPc_toNat (s : State) (t : Nat) : (setPc s t).pc.toNat = t % 64 := by
  simp [BitVec.toNat_ofNat]

theorem advancePc_toNat (s : State) : (advancePc s).pc.toNat = (s.pc.toNat + 1) % 64 := by
  simp [BitVec.toNat_ofNat]

/-- The newest entry is the one pushed, and every other is the one that stood after it (rule R42). -/
theorem pushEntry_get (t : Vector TraceEntry 7) (e : TraceEntry) (i : Nat) (h : i < 7) :
    (pushEntry t e)[i] = if h' : i + 1 < 7 then t[i + 1] else e := by
  match i, h with
  | 0, _ => rfl
  | 1, _ => rfl
  | 2, _ => rfl
  | 3, _ => rfl
  | 4, _ => rfl
  | 5, _ => rfl
  | 6, _ => rfl

/-! ### Operand values -/

theorem regOperand_lt (s : State) (f : Nat) : regOperand s f < 256 := (readReg s f).isLt

theorem regOperand_mod (s : State) (f : Nat) : regOperand s (f % 8) = regOperand s f := by
  simp only [regOperand, readReg_mod]

theorem directCell_lt (addr : Nat) : directCell addr < 32 := Nat.mod_lt _ (by decide)

theorem pointerCell_lt (s : State) (ptr : Nat) : pointerCell s ptr < 32 := Nat.mod_lt _ (by decide)

/-! ### Flag lists -/

theorem arithmeticFlags_length (r : Nat) (c v : Bool) : (arithmeticFlags r c v).length = 8 := rfl

theorem bitwiseFlags_length (r : Nat) : (bitwiseFlags r).length = 8 := rfl

theorem compareFlags_length (A B : Nat) : (compareFlags A B).length = 8 := rfl

theorem sumResult_lt (A B : Nat) : sumResult A B < 256 := Nat.mod_lt _ (by decide)

theorem differenceResult_lt (A B : Nat) : differenceResult A B < 256 := by
  unfold differenceResult; omega

theorem andResult_lt {A B : Nat} (h : A < 256) : andResult A B < 256 := lt_of_le_of_lt Nat.and_le_left h

theorem norResult_lt (A B : Nat) : norResult A B < 256 := by unfold norResult; omega

theorem xorResult_lt {A B : Nat} (hA : A < 256) (hB : B < 256) : xorResult A B < 256 :=
  Nat.xor_lt_two_pow (n := 8) hA hB

theorem rshResult_lt {A : Nat} (h : A < 256) : rshResult A < 256 := by unfold rshResult; omega

/-- Bit 8 of a sum of two bytes is the comparison of the sum with 256 (rule R142). -/
theorem addCarry_eq {A B : Nat} (hA : A < 256) (hB : B < 256) : addCarry A B = decide (A + B ≥ 256) := by
  rw [addCarry, Nat.testBit_eq_decide_div_mod_eq, decide_eq_decide]
  omega

/-- Bit 8 of a difference of two bytes modulo 512 is the comparison `A < B` (rule R142). -/
theorem subCarry_eq {A B : Nat} (hA : A < 256) (hB : B < 256) : subCarry A B = decide (A < B) := by
  rw [subCarry, Nat.testBit_eq_decide_div_mod_eq, decide_eq_decide]
  omega

theorem evenFlag_eq (r : Nat) : evenFlag r = decide (r % 2 = 0) := by
  rw [evenFlag, Nat.testBit_zero]
  by_cases h : r % 2 = 0
  · simp [h]
  · simp [show r % 2 = 1 by omega]

/-! ### What the families share -/

/-- The register file after an ALU instruction. -/
theorem readReg_aluWriteback (s : State) (dest r : Nat) (flags : List Bool) (j : Nat) :
    readReg (aluWriteback s dest r flags) j = if j % 8 = dest % 8 then BitVec.ofNat 8 r else readReg s j := by
  rw [aluWriteback, readReg_advancePc, readReg_writeFlags, readReg_writeReg]

/-- The flags after an ALU instruction: the eight of the list below 8, the old ones from 8 on. -/
theorem readFlag_aluWriteback (s : State) (dest r : Nat) (flags : List Bool) (h : flags.length = 8) (j : Nat) :
    readFlag (aluWriteback s dest r flags) j = (flags[j % 16]?).getD (readFlag s j) := by
  rw [aluWriteback, readFlag_advancePc, readFlag_writeFlags _ _ _ (by omega), if_pos (Nat.zero_le _), Nat.sub_zero,
    readFlag_writeReg]

/-- An ALU instruction changes the registers, the flags and the pc, and no other field. -/
theorem aluWriteback_frame (s : State) (dest r : Nat) (flags : List Bool) :
    aluWriteback s dest r flags = { s with
      x := (aluWriteback s dest r flags).x, flag := (aluWriteback s dest r flags).flag,
      pc := BitVec.ofNat 6 (s.pc.toNat + 1) } := rfl

/-- The register file after a load. -/
theorem readReg_loadInto (s : State) (dest v j : Nat) :
    readReg (loadInto s dest v) j = if j % 8 = dest % 8 then BitVec.ofNat 8 v else readReg s j := by
  rw [loadInto, readReg_advancePc, readReg_writeReg]

/-- RAM after a store. -/
theorem memRead_storeFrom {s : State} (h : Memory.wf 32 s.ram = true) (src cell b : Nat) :
    memRead (storeFrom s src cell) b = if b % 32 = cell % 32 then readReg s src else memRead s b := by
  rw [storeFrom, memRead_advancePc, memRead_memWrite h]
  simp [regOperand]

/-- The pc after a conditional branch. -/
theorem branchIf_pc (s : State) (cond target : Nat) :
    (branchIf s cond target).pc.toNat = (if readFlag s cond then target else s.pc.toNat + 1) % 64 := by
  rw [branchIf, setPc_toNat]

/-- A conditional branch writes the pc and nothing else. -/
theorem branchIf_frame (s : State) (cond target : Nat) :
    branchIf s cond target = { s with pc := (branchIf s cond target).pc } := rfl

end Sys2Proof.Machine
end

