-- ==== Sys2Proof/Laws/Loader.lean ====
section
/-! SUPPORT. The pieces of program loading: lines and digits, and what processing lines does to a state. -/

namespace Sys2Proof.Machine

/-! ### Lines -/

theorem splitLines_ne_nil (l : List Char) : splitLines l ≠ [] := by
  cases l with
  | nil => exact List.cons_ne_nil _ _
  | cons c cs =>
    rw [splitLines]
    split
    · exact List.cons_ne_nil _ _
    · split <;> exact List.cons_ne_nil _ _

/-- A text without a line feed is one line. -/
theorem splitLines_single {l : List Char} (h : '\n' ∉ l) : splitLines l = [l] := by
  induction l with
  | nil => rfl
  | cons c cs ih =>
    rw [List.mem_cons, not_or] at h
    rw [splitLines, if_neg (Ne.symm h.1), ih h.2]

/-- The first line feed ends the first line. -/
theorem splitLines_append {l : List Char} (h : '\n' ∉ l) (rest : List Char) :
    splitLines (l ++ '\n' :: rest) = l :: splitLines rest := by
  induction l with
  | nil => rw [List.nil_append, splitLines, if_pos rfl]
  | cons c cs ih =>
    rw [List.mem_cons, not_or] at h
    rw [List.cons_append, splitLines, if_neg (Ne.symm h.1), ih h.2]

/-- Splitting undoes joining, for lines that hold no line feed. -/
theorem splitLines_intercalate {lines : List (List Char)} (hne : lines ≠ []) (h : ∀ l ∈ lines, '\n' ∉ l) :
    splitLines (List.intercalate ['\n'] lines) = lines := by
  induction lines with
  | nil => exact absurd rfl hne
  | cons l ls ih =>
    cases ls with
    | nil => simpa [List.intercalate] using splitLines_single (h l (by simp))
    | cons l' ls' =>
      have e : List.intercalate ['\n'] (l :: l' :: ls') = l ++ '\n' :: List.intercalate ['\n'] (l' :: ls') := by
        simp [List.intercalate, List.intersperse]
      rw [e, splitLines_append (h l (by simp)), ih (by simp) fun m hm => h m (List.mem_cons_of_mem _ hm)]

/-! ### Digits -/

theorem bitValue_eq_none {c : Char} : bitValue c = none ↔ c ≠ '0' ∧ c ≠ '1' := by
  unfold bitValue
  split
  · simp [*]
  · split <;> simp [*]

theorem isTrimmed_of_digit {c : Char} (h : c = '0' ∨ c = '1') : isTrimmed c = false := by
  rcases h with rfl | rfl <;> rfl

/-- Digits are not trimmed. -/
theorem trim_digits {l : List Char} (h : ∀ c ∈ l, c = '0' ∨ c = '1') : trim l = l := by
  have drop : ∀ m : List Char, (∀ c ∈ m, c = '0' ∨ c = '1') → m.dropWhile isTrimmed = m := by
    intro m hm
    cases m with
    | nil => rfl
    | cons c cs => rw [List.dropWhile_cons, isTrimmed_of_digit (hm c (by simp))]; rfl
  rw [trim, drop l h, drop l.reverse (fun c hc => h c (List.mem_reverse.mp hc)), List.reverse_reverse]

/-- A numeral fails exactly at a character that is no digit (rule R287). -/
theorem parseBits_eq_none {acc : Nat} {l : List Char} : parseBits acc l = none ↔ ∃ c ∈ l, c ≠ '0' ∧ c ≠ '1' := by
  induction l generalizing acc with
  | nil => simp [parseBits]
  | cons c cs ih =>
    rw [parseBits]
    cases hb : bitValue c with
    | none => simpa using Or.inl (bitValue_eq_none.mp hb)
    | some b =>
      have hc : ¬(c ≠ '0' ∧ c ≠ '1') := fun hn => by rw [bitValue_eq_none.mpr hn] at hb; cases hb
      simp only [ih, List.mem_cons, exists_eq_or_imp, hc, false_or]

/-- The digits of a number, most significant first, are read back as the number below `2 ^ n` (rule R72). -/
theorem parseBits_digits (x n acc : Nat) :
    parseBits acc ((List.range n).map fun k => if x.testBit (n - 1 - k) then '1' else '0') =
      some (acc * 2 ^ n + x % 2 ^ n) := by
  induction n generalizing acc with
  | zero => simp [parseBits, Nat.mod_one]
  | succ n ih =>
    rw [List.range_succ_eq_map, List.map_cons, List.map_map, parseBits]
    have hb : bitValue (if x.testBit (n + 1 - 1 - 0) = true then '1' else '0') = some ((x / 2 ^ n) % 2) := by
      rw [show n + 1 - 1 - 0 = n by omega, Nat.testBit_eq_decide_div_mod_eq]
      rcases Nat.mod_two_eq_zero_or_one (x / 2 ^ n) with h | h <;> rw [h] <;> rfl
    rw [hb]
    have hf : (List.range n).map ((fun k => if x.testBit (n + 1 - 1 - k) = true then '1' else '0') ∘ Nat.succ) =
        (List.range n).map fun k => if x.testBit (n - 1 - k) = true then '1' else '0' := by
      refine List.map_congr_left fun k _ => ?_
      rw [Function.comp_apply, show n + 1 - 1 - k.succ = n - 1 - k by omega]
    rw [hf]
    simp only [ih]
    rw [Nat.pow_succ, Nat.mod_mul, Nat.add_mul]
    congr 1
    ring

/-! ### Processing lines -/

/-- A line is malformed when it has the required length and a character that is no digit (rule R287). -/
theorem classify_malformed {len : Nat} {line : List Char} :
    classify len line = .malformed ↔ (trim line).length = len ∧ ∃ c ∈ trim line, c ≠ '0' ∧ c ≠ '1' := by
  unfold classify
  split
  · rename_i h
    cases hp : parseBits 0 (trim line) with
    | none => simp [h, parseBits_eq_none.mp hp]
    | some v =>
      have hn : ¬∃ c ∈ trim line, c ≠ '0' ∧ c ≠ '1' := fun hx => by rw [parseBits_eq_none.mpr hx] at hp; cases hp
      simp only [hn, and_false, reduceCtorEq]
  · rename_i h
    simp [h]

/-- The digits of a `len`-bit number are a valid line with its value. -/
theorem classify_digits (x len : Nat) :
    classify len ((List.range len).map fun k => if x.testBit (len - 1 - k) then '1' else '0') =
      .valid (x % 2 ^ len) := by
  have hd : ∀ c ∈ (List.range len).map fun k => if x.testBit (len - 1 - k) = true then '1' else '0',
      c = '0' ∨ c = '1' := by
    intro c hc
    obtain ⟨k, -, rfl⟩ := List.mem_map.mp hc
    split <;> simp
  rw [classify, trim_digits hd, List.length_map, List.length_range, if_pos rfl, parseBits_digits]
  simp

/-- An empty line is skipped. -/
theorem classify_empty {len : Nat} (h : 0 < len) : classify len [] = .skipped := by
  rw [classify, if_neg]
  simp [trim, Nat.ne_of_lt h]

/-- Lines before a point where nothing is malformed are processed first; the rest goes on from there. -/
theorem loadLines_append (len : Nat) (write : State → Nat → Nat → State) {before : List (List Char)}
    (h : ∀ l ∈ before, classify len l ≠ .malformed) (i : Nat) (rest : List (List Char)) (s : State) :
    loadLines len write i (before ++ rest) s =
      loadLines len write (i + before.length) rest (loadLines len write i before s).1 := by
  induction before generalizing i s with
  | nil => rfl
  | cons l ls ih =>
    have hl := h l (by simp)
    have hr := fun m hm => h m (List.mem_cons_of_mem l hm)
    rw [List.cons_append, loadLines, loadLines, List.length_cons, show i + (ls.length + 1) = i + 1 + ls.length by omega]
    cases hc : classify len l with
    | skipped => exact ih hr _ _
    | valid v => exact ih hr _ _
    | malformed => exact absurd hc hl

/-- Without a malformed line the processing is not stopped. -/
theorem loadLines_completes (len : Nat) (write : State → Nat → Nat → State) {lines : List (List Char)}
    (h : ∀ l ∈ lines, classify len l ≠ .malformed) (i : Nat) (s : State) :
    (loadLines len write i lines s).2 = true := by
  induction lines generalizing i s with
  | nil => rfl
  | cons l ls ih =>
    have hr := fun m hm => h m (List.mem_cons_of_mem l hm)
    rw [loadLines]
    cases hc : classify len l with
    | skipped => exact ih hr _ _
    | valid v => exact ih hr _ _
    | malformed => exact absurd hc (h l (by simp))

/-- What the writes keep, processing lines keeps. -/
theorem loadLines_keeps (len : Nat) (write : State → Nat → Nat → State) (P : State → Prop)
    (h : ∀ s i v, P s → P (write s i v)) (i : Nat) (lines : List (List Char)) (s : State) (hs : P s) :
    P (loadLines len write i lines s).1 := by
  induction lines generalizing i s with
  | nil => exact hs
  | cons l ls ih =>
    rw [loadLines]
    cases classify len l with
    | skipped => exact ih _ _ hs
    | valid v => exact ih _ _ (h _ _ _ hs)
    | malformed => exact hs

/-- Processing a ROM text changes ROM and nothing else. -/
theorem loadLines_rom_frame (len i : Nat) (lines : List (List Char)) (s : State) :
    (loadLines len romWrite i lines s).1 = { s with rom := (loadLines len romWrite i lines s).1.rom } :=
  loadLines_keeps len romWrite (fun t => t = { s with rom := t.rom })
    (fun t _ _ ht => by rw [ht]; rfl) i lines s rfl

/-- Processing a RAM text changes RAM and nothing else. -/
theorem loadLines_ram_frame (len i : Nat) (lines : List (List Char)) (s : State) :
    (loadLines len memWrite i lines s).1 = { s with ram := (loadLines len memWrite i lines s).1.ram } :=
  loadLines_keeps len memWrite (fun t => t = { s with ram := t.ram })
    (fun t _ _ ht => by rw [ht]; rfl) i lines s rfl

/-- Processing a ROM text keeps ROM canonical. -/
theorem loadLines_rom_wf (len i : Nat) (lines : List (List Char)) {s : State} (h : Memory.wf 64 s.rom = true) :
    Memory.wf 64 (loadLines len romWrite i lines s).1.rom = true :=
  loadLines_keeps len romWrite (fun t => Memory.wf 64 t.rom = true) (fun _ i v ht => romWrite_wf ht i v) i lines s h

/-- Processing a RAM text keeps RAM canonical. -/
theorem loadLines_ram_wf (len i : Nat) (lines : List (List Char)) {s : State} (h : Memory.wf 32 s.ram = true) :
    Memory.wf 32 (loadLines len memWrite i lines s).1.ram = true :=
  loadLines_keeps len memWrite (fun t => Memory.wf 32 t.ram = true) (fun _ i v ht => memWrite_wf ht i v) i lines s h

/-! ### The sources -/

/-- The ROM source changes ROM and the log and nothing else. -/
theorem loadRom_frame (src : Option (List Char)) (s : State) :
    loadRom src s = { s with rom := (loadRom src s).rom, trace := (loadRom src s).trace } := by
  cases src with
  | none => rfl
  | some text =>
    have hf := loadLines_rom_frame 16 0 (splitLines text) s
    rw [loadRom]
    generalize loadLines 16 romWrite 0 (splitLines text) s = p at hf
    obtain ⟨t, b⟩ := p
    rw [show t = _ from hf]
    cases b <;> rfl

/-- The RAM source changes RAM and the log and nothing else. -/
theorem loadRam_frame (src : Option (List Char)) (s : State) :
    loadRam src s = { s with ram := (loadRam src s).ram, trace := (loadRam src s).trace } := by
  cases src with
  | none => rfl
  | some text =>
    have hf := loadLines_ram_frame 8 0 (splitLines text) s
    rw [loadRam]
    generalize loadLines 8 memWrite 0 (splitLines text) s = p at hf
    obtain ⟨t, b⟩ := p
    rw [show t = _ from hf]
    cases b <;> rfl

/-- The ROM after a ROM source is the one its lines leave, whether or not the processing was stopped. -/
theorem loadRom_rom (text : List Char) (s : State) :
    (loadRom (some text) s).rom = (loadLines 16 romWrite 0 (splitLines text) s).1.rom := by
  rw [loadRom]
  generalize loadLines 16 romWrite 0 (splitLines text) s = p
  obtain ⟨t, b⟩ := p
  cases b <;> rfl

/-- The RAM after a RAM source is the one its lines leave, whether or not the processing was stopped. -/
theorem loadRam_ram (text : List Char) (s : State) :
    (loadRam (some text) s).ram = (loadLines 8 memWrite 0 (splitLines text) s).1.ram := by
  rw [loadRam]
  generalize loadLines 8 memWrite 0 (splitLines text) s = p
  obtain ⟨t, b⟩ := p
  cases b <;> rfl

end Sys2Proof.Machine
end

