-- ==== Sys2Proof/Laws/Cycle.lean ====
section
/-! SUPPORT. What a cycle and a `load` can do, said once: the instruction's own writes, the bookkeeping around it, and
the fields a `load` reaches. -/

namespace Sys2Proof.Machine

/-- In a run mode the cycle's precondition holds, whatever `SETUP_CYCLE` is. -/
theorem cycle_of_run {cfg : Config} {s : State} (h : s.mode ≠ .setup) : cycle cfg s = runCycle cfg s := by
  unfold cycle
  split <;> simp_all

/-- Under `SETUP_CYCLE = execute` every mode runs the cycle. -/
theorem cycle_of_execute {cfg : Config} (h : cfg.setupCycle = .execute) (s : State) : cycle cfg s = runCycle cfg s := by
  unfold cycle
  split <;> simp_all

/-- Where the instruction answers a next state, the cycle answers it with the bookkeeping done. -/
theorem runCycle_of_exec {cfg : Config} {s t : State}
    (h : exec (decodeWith cfg.twoNibbleLayout (fetch s)) s = .next t) :
    runCycle cfg s = .next (retire cfg (decodeWith cfg.twoNibbleLayout (fetch s)) s t) := by
  rw [runCycle, h]

/-- The last-touched indices after a cycle depend on the registers, the flags, the pc and the old indices only. -/
theorem touchedBy_congr {i : Instr} {s s' : State} (hx : s'.x = s.x) (hf : s'.flag = s.flag) (hp : s'.pc = s.pc)
    (hl : s'.last = s.last) : touchedBy i s' = touchedBy i s := by
  have hr : ∀ n, readReg s' n = readReg s n := fun n => by simp only [readReg, hx]
  have hc : ∀ n, readFlag s' n = readFlag s n := fun n => by simp only [readFlag, hf]
  cases i <;> simp only [touchedBy, pointerCell, regOperand, hp, hl, hr, hc]

/-- The fields the bookkeeping of a cycle writes. -/
theorem retire_frame (cfg : Config) (i : Instr) (s t : State) :
    retire cfg i s t = { t with
      icount := (retire cfg i s t).icount, trace := (retire cfg i s t).trace, last := (retire cfg i s t).last } := rfl

/-- The fields a `load` writes. -/
theorem loadSources_frame (rom ram : Option (List Char)) (s : State) :
    loadSources rom ram s = { s with
      rom := (loadRom rom s).rom, ram := (loadSources rom ram s).ram, trace := (loadSources rom ram s).trace,
      freeIdx := s.freeIdx + 3 } := by
  have hrom : (loadRom rom (pushLoadReports s)).rom = (loadRom rom s).rom := by
    cases rom with
    | none => rfl
    | some text =>
      rw [loadRom_rom, loadRom_rom]
      generalize splitLines text = ls
      have key : ∀ (ls : List (List Char)) (i : Nat) (u v : State), u.rom = v.rom →
          (loadLines 16 romWrite i ls u).1.rom = (loadLines 16 romWrite i ls v).1.rom := by
        intro ls
        induction ls with
        | nil => intro i u v h; exact h
        | cons l ls ih =>
          intro i u v h
          rw [loadLines, loadLines]
          split
          · exact ih _ _ _ h
          · exact ih _ _ _ (by simp only [romWrite, h])
          · exact h
      exact key ls 0 _ _ rfl
  have h2 : loadRom rom (pushLoadReports s) = { pushLoadReports s with
      rom := (loadRom rom s).rom, trace := (loadRom rom (pushLoadReports s)).trace } := by
    conv_lhs => rw [loadRom_frame, hrom]
  have h3 := loadRam_frame ram (pushLoadReports (loadRom rom (pushLoadReports s)))
  have h4 : loadSources rom ram s = pushLoadReports (loadRam ram (pushLoadReports (loadRom rom (pushLoadReports s)))) := rfl
  rw [h3, h2] at h4
  ext1 <;> first | rfl | (rw [h4]; rfl)

end Sys2Proof.Machine
end

