-- ==== Sys2Proof/Laws/Encode.lean ====
section
/-! SUPPORT. The pieces the encoding statements are made of: the opcode of a word is its top four bits, a word put
together from an opcode and twelve operand bits has that opcode, and the fields fit. -/

namespace Sys2Proof

theorem slice_lt (w : Word) (hi lo : Nat) : slice w hi lo < 2 ^ (hi - lo + 1) := Nat.mod_lt _ (Nat.two_pow_pos _)

theorem opcode_number_lt (op : Opcode) : op.number < 16 := by cases op <;> decide

theorem opcode_number_inj {a b : Opcode} (h : a.number = b.number) : a = b := by
  cases a <;> cases b <;> first | rfl | exact absurd h (by decide)

/-- `op = w[15:12]` as a number (rule R91). -/
theorem opcodeOf_number (w : Word) : (opcodeOf w).number = w.toNat / 4096 := by
  have hw := w.isLt
  unfold opcodeOf
  split <;> rename_i h15 h14 h13 h12 <;>
    simp only [BitVec.getLsbD, Nat.testBit_eq_decide_div_mod_eq, decide_eq_true_eq, decide_eq_false_iff_not] at h15 h14 h13 h12 <;>
    simp only [Opcode.number] <;> omega

/-- A word made of an opcode and twelve operand bits has that opcode. -/
theorem opcodeOf_of_parts (op : Opcode) {r : Nat} (h : r < 4096) :
    opcodeOf (BitVec.ofNat 16 (op.number * 2 ^ 12 + r)) = op := by
  have hn := opcode_number_lt op
  refine opcode_number_inj ?_
  rw [opcodeOf_number, BitVec.toNat_ofNat]
  omega

/-- The operands of a well-formed instruction take twelve bits (rules R93 to R98). -/
theorem operandBits_lt (l : TwoNibbleLayout) {i : Instr} (h : i.wf = true) : operandBits l i < 4096 := by
  cases i <;> cases l <;>
    simp only [Instr.wf, fitsNibble, fitsImm8, fitsAddr12, Bool.and_eq_true, decide_eq_true_eq] at h <;>
    simp only [operandBits, placeSecond] <;> omega

/-- The word of a well-formed instruction as a number: nothing is cut off at 16 bits. -/
theorem encodeWith_toNat (l : TwoNibbleLayout) {i : Instr} (h : i.wf = true) :
    (encodeWith l i).toNat = i.opcode.number * 4096 + operandBits l i := by
  have hn := opcode_number_lt i.opcode
  have hr := operandBits_lt l h
  rw [encodeWith, BitVec.toNat_ofNat]
  omega

end Sys2Proof
end

