-- ==== Sys2Proof/Laws/PerInstr.lean ====
section
/-! SUPPORT. Statements made once per instruction. -/

namespace Sys2Proof.Laws.EncodedOpcode

/-- The encoding of a well-formed instruction carries its own opcode, under either layout. -/
def Statement (i : Instr) : Prop :=
  i.wf = true → ∀ l : TwoNibbleLayout, opcodeOf (encodeWith l i) = i.opcode

theorem of_parts (i : Instr) : Statement i := fun h l => opcodeOf_of_parts i.opcode (operandBits_lt l h)

theorem halt : Statement .halt := of_parts _
theorem add (dest a b : Nat) : Statement (.add dest a b) := of_parts _
theorem sub (dest a b : Nat) : Statement (.sub dest a b) := of_parts _
theorem and (dest a b : Nat) : Statement (.and dest a b) := of_parts _
theorem nor (dest a b : Nat) : Statement (.nor dest a b) := of_parts _
theorem xor (dest a b : Nat) : Statement (.xor dest a b) := of_parts _
theorem rsh (dest a : Nat) : Statement (.rsh dest a) := of_parts _
theorem cmp (a b : Nat) : Statement (.cmp a b) := of_parts _
theorem ldi (dest imm : Nat) : Statement (.ldi dest imm) := of_parts _
theorem ldm (dest addr : Nat) : Statement (.ldm dest addr) := of_parts _
theorem stm (src addr : Nat) : Statement (.stm src addr) := of_parts _
theorem ldp (dest ptr : Nat) : Statement (.ldp dest ptr) := of_parts _
theorem stp (ptr src : Nat) : Statement (.stp ptr src) := of_parts _
theorem brc (cond addr : Nat) : Statement (.brc cond addr) := of_parts _
theorem brp (cond ptr : Nat) : Statement (.brp cond ptr) := of_parts _
theorem jmp (addr : Nat) : Statement (.jmp addr) := of_parts _

end Sys2Proof.Laws.EncodedOpcode
end

