-- ==== Sys2Proof/Tests/Slice0.lean ====
section
/-! SUPPORT. Tests: expected values are those of `spec/95_test_vectors.md` (the vector's id stands beside each) or are
written out by hand from the rule named. Then one witness for the hypotheses of every statement that has some. -/

namespace Sys2Proof.Tests

open Sys2Proof.Machine Sys2Proof.Claims

/-! ## Helpers -/

/-- The state after power-on with the registers `xs`, in Automatic (the convention of `95_test_vectors.md`). -/
def regs (xs : Vector Byte 8) : State := { State.reset with x := xs, mode := .automatic }

/-- ... with r1 and r2 given. -/
def ab (a b : Byte) : State := regs #v[0, a, b, 0, 0, 0, 0, 0]

/-- A flag string as the spec prints it. -/
def bits (t : String) : List Bool := t.toList.map (· == '1')

/-- Flags 0 to 7. -/
def low (s : State) : List Bool := (List.range 8).map fun k => readFlag s k

/-- Flags 8 to 15. -/
def high (s : State) : List Bool := (List.range 8).map fun k => readFlag s (8 + k)

/-- One step with the word placed where it is fetched. -/
def after (w : Nat) (s : State) : Option State :=
  match step (s.withFetchWord 16 w) with
  | .next t => some t
  | .fault _ => none
  | .refused _ => none

/-- One step with the word placed, and then a test. -/
def holds (w : Nat) (s : State) (p : State → Bool) : Bool :=
  match after w s with
  | some t => p t
  | none => false

/-! ## WellFormed refuses an ill-formed term for each check -/

theorem test_wf_refuses_nibble : (Instr.add 16 0 0).wf = false ∧ (Instr.add 0 16 0).wf = false ∧
    (Instr.add 0 0 16).wf = false ∧ (Instr.cmp 0 16).wf = false ∧ (Instr.rsh 0 16).wf = false ∧
    (Instr.stp 16 0).wf = false ∧ (Instr.ldp 0 16).wf = false ∧ (Instr.brp 16 0).wf = false := by decide
theorem test_wf_refuses_imm8 : (Instr.ldi 0 256).wf = false ∧ (Instr.ldm 0 256).wf = false ∧
    (Instr.stm 0 256).wf = false ∧ (Instr.brc 0 256).wf = false := by decide
theorem test_wf_refuses_addr12 : (Instr.jmp 4096).wf = false := by decide
theorem test_wf_accepts_largest : (Instr.add 15 15 15).wf = true ∧ (Instr.ldi 15 255).wf = true ∧
    (Instr.jmp 4095).wf = true := by decide

/-! ## Decoding: a word written out bit by bit from the pictures of rule R100, for every instruction -/

theorem test_decode_halt : decode 0b0000_0000_0000_0000 = .halt ∧ decode 0b0000_1111_1111_1111 = .halt := by decide
theorem test_decode_add : decode 0b0001_0011_0101_0110 = .add 3 5 6 := by decide
theorem test_decode_sub : decode 0b0010_0111_0001_0010 = .sub 7 1 2 := by decide
theorem test_decode_and : decode 0b0011_0001_0010_0100 = .and 1 2 4 := by decide
theorem test_decode_nor : decode 0b0100_0100_0010_0001 = .nor 4 2 1 := by decide
theorem test_decode_xor : decode 0b0101_1001_1010_1011 = .xor 9 10 11 := by decide
theorem test_decode_rsh : decode 0b0110_0001_0010_1111 = .rsh 1 2 := by decide
theorem test_decode_cmp : decode 0b0111_1111_0001_0010 = .cmp 1 2 := by decide
theorem test_decode_ldi : decode 0b1000_0010_1000_0001 = .ldi 2 129 := by decide
theorem test_decode_ldm : decode 0b1001_0011_0001_0001 = .ldm 3 17 := by decide
theorem test_decode_stm : decode 0b1010_0011_1111_0001 = .stm 3 241 := by decide
theorem test_decode_ldp : decode 0b1011_0001_0010_1111 = .ldp 1 2 ∧
    decodeWith .low 0b1011_0001_0010_1111 = .ldp 1 15 := by decide
theorem test_decode_stp : decode 0b1100_0010_0001_0011 = .stp 2 1 ∧
    decodeWith .low 0b1100_0010_0001_0011 = .stp 2 3 := by decide
theorem test_decode_brc : decode 0b1101_1100_0100_1001 = .brc 12 73 := by decide
theorem test_decode_brp : decode 0b1110_1111_0100_1000 = .brp 15 4 ∧
    decodeWith .low 0b1110_1111_0100_1000 = .brp 15 8 := by decide
theorem test_decode_jmp : decode 0b1111_1000_0100_0110 = .jmp 2118 := by decide
theorem test_decodeTableWord : decodeTableWord 16 0xF046 = some (.jmp 70) ∧ decodeTableWord 32 0 = none := by decide
theorem test_encode : encode (.add 0 0 1) = 0x1001 ∧ encode (.stp 2 1) = 0xC210 ∧ encode (.brc 12 9) = 0xDC09 ∧
    encode (.jmp 70) = 0xF046 ∧ encode (.cmp 1 2) = 0x7012 ∧ encodeWith .low (.stp 2 1) = 0xC201 := by decide

/-! ## The instructions -/

/-- H-1, and H-2's mode. -/
theorem test_halt : holds 0x0000 { ab 7 0 with pc := 3, icount := 3 } (fun t =>
    t.pc == 4 && t.mode == .setup && t.icount == 4 && readReg t 1 == 7) = true := by decide
/-- H-3: the pc wraps. -/
theorem test_halt_wraps : holds 0x0FFF { ab 0 0 with pc := 63 } (fun t => t.pc == 0 && t.mode == .setup) = true := by
  decide
/-- A-5. -/
theorem test_add_carry_overflow : holds 0x1012 (ab 128 128) (fun t =>
    readReg t 0 == 0 && low t == bits "10101010" && high t == bits "00000001" && t.pc == 1) = true := by decide
/-- A-6. -/
theorem test_add_overflow : holds 0x1012 (ab 127 1) (fun t => readReg t 0 == 128 && low t == bits "01011010") = true := by
  decide
/-- A-21. -/
theorem test_sub_borrow : holds 0x2012 (ab 3 5) (fun t => readReg t 0 == 254 && low t == bits "01100110") = true := by
  decide
/-- A-33. -/
theorem test_sub_overflow : holds 0x2012 (ab 127 128) (fun t =>
    readReg t 0 == 255 && low t == bits "01101001") = true := by decide
/-- A-40. -/
theorem test_and : holds 0x3012 (ab 204 170) (fun t => readReg t 0 == 136 && low t == bits "01000010") = true := by
  decide
/-- A-46. -/
theorem test_nor : holds 0x4012 (ab 204 170) (fun t => readReg t 0 == 17 && low t == bits "01000001") = true := by
  decide
/-- A-52. -/
theorem test_xor : holds 0x5012 (ab 204 170) (fun t => readReg t 0 == 102 && low t == bits "01000010") = true := by
  decide
/-- A-75: logical, the bit shifted out is lost. -/
theorem test_rsh : holds 0x6010 (ab 129 0) (fun t => readReg t 0 == 64 && low t == bits "01000010") = true := by decide
/-- A-65: the low nibble is ignored. -/
theorem test_rsh_ignored_bits : holds 0x612F (ab 0 6) (fun t => readReg t 1 == 3 && low t == bits "01000001") = true := by
  decide
/-- C-5: unsigned. -/
theorem test_cmp_unsigned : holds 0x7012 (ab 128 127) (fun t =>
    high t == bits "10010101" && low t == bits "00000000" && t.pc == 1) = true := by decide
/-- A-61: the dest field is ignored. -/
theorem test_cmp_equal : holds 0x7F12 (ab 9 9) (fun t => high t == bits "01011001" && readReg t 7 == 0) = true := by
  decide
/-- M-3: the register field 15 is r7. -/
theorem test_ldi : holds 0x8F2A (ab 0 0) (fun t => readReg t 7 == 42 && low t == bits "00000000") = true := by decide
/-- M-7: the address wraps. -/
theorem test_ldm : holds 0x93F1 { ab 0 0 with ram := [(17, 0x5A)] } (fun t => readReg t 3 == 0x5A) = true := by decide
/-- M-10. -/
theorem test_stm : holds 0xA3FF (regs #v[0, 0, 0, 0x5A, 0, 0, 0, 0]) (fun t => t.ram == [(31, 0x5A)]) = true := by
  decide
/-- Rule R65 with a 0: the cell is no longer listed. -/
theorem test_stm_zero : holds 0xA011 { ab 0 0 with ram := [(3, 1), (17, 9), (20, 2)] } (fun t =>
    t.ram == [(3, 1), (20, 2)]) = true := by decide
/-- M-14: the address comes from the old value. -/
theorem test_ldp : holds 0xB220 { ab 0 37 with ram := [(5, 0x99)] } (fun t => readReg t 2 == 0x99) = true := by decide
/-- M-17: the pointer is the first operand. -/
theorem test_stp : holds 0xC210 (ab 0x99 37) (fun t => t.ram == [(5, 0x99)]) = true := by decide
/-- B-2: not taken. -/
theorem test_brc_not_taken : holds 0xDC09 { ab 0 0 with pc := 4 } (fun t => t.pc == 5) = true := by decide
/-- B-3: taken, and the target wraps. -/
theorem test_brc_taken : holds 0xDF46 { ab 0 0 with pc := 10 } (fun t => t.pc == 6) = true := by decide
/-- B-10. -/
theorem test_brp_taken : holds 0xEF40 { regs #v[0, 0, 0, 0, 74, 0, 0, 0] with pc := 2 } (fun t => t.pc == 10) = true := by
  decide
/-- B-14: not taken at the end of ROM. -/
theorem test_brp_not_taken : holds 0xEE40 { regs #v[0, 0, 0, 0, 74, 0, 0, 0] with pc := 63 } (fun t => t.pc == 0) = true := by
  decide
/-- B-20. -/
theorem test_jmp : holds 0xF046 { ab 0 0 with pc := 9 } (fun t => t.pc == 6 && t.icount == 1) = true := by decide

/-! ## Events -/

/-- H-5: `cycle` in Setup is refused. -/
theorem test_cycle_in_setup : step State.reset = .refused .cycleInSetup := rfl
/-- F-9: `load` in a run mode is refused. -/
theorem test_load_outside_setup :
    step { ab 0 0 with pending := [.load none none] } = .refused .loadOutsideSetup := rfl
/-- F-3: the run command in ManualStep. -/
theorem test_run_command_in_manualStep :
    step { ab 0 0 with mode := .manualStep, pending := [.requestAutomaticMode] } =
      .next { ab 0 0 with mode := .manualStep } := rfl
/-- Z-1: ROM stays, the rest is cleared, the count is logged. -/
theorem test_programReset :
    let s : State := { ab 8 255 with rom := [(0, 0x8005)], ram := [(3, 9)], pc := 41, icount := 1000 }
    (programReset s).rom = [(0, 0x8005)] ∧ (programReset s).ram = [] ∧ (programReset s).pc = 0 ∧
      (programReset s).trace[6] = .priorCount 1000 := by decide
/-- S7, L-1. -/
theorem test_load_short_line :
    (loadRom (some "1000000000000001\n000000000000000".toList) State.reset).rom = [(0, 0x8001)] := by decide
/-- S8, L-2. -/
theorem test_load_malformed_line :
    (loadRom (some "1000000000000101\n10000001000000x1\n0001000000000001".toList)
      { State.reset with rom := [(2, 0xF006)] }).rom = [(0, 0x8005), (2, 0xF006)] := by decide
/-- L-4: line ends with a carriage return. -/
theorem test_load_carriage_return :
    (loadRom (some "1000000000000101\r\n0000000000000000\r\n".toList) State.reset).rom = [(0, 0x8005)] := by decide
/-- L-6: outer white space is trimmed, inner white space makes the line longer. -/
theorem test_load_trim :
    (loadRom (some "  1000000000000101\t\n1000 0000 0000 0101\n1000000100000011".toList) State.reset).rom =
      [(0, 0x8005), (2, 0x8103)] := by decide
/-- L-7: a sign is malformed. -/
theorem test_load_sign :
    (loadRom (some "+000000000000001".toList) { State.reset with rom := [(0, 0x1234)] }).trace[6] = .romCorrupt := by
  decide
/-- L-10: the RAM source aborts in the same way. -/
theorem test_load_ram :
    (loadRam (some "00001011\n0001011x\n00100001".toList) State.reset).ram = [(0, 11)] := by decide

/-! ## Witnesses: for every statement with hypotheses, a state and operands that meet them, at the boundaries -/

/-- A state in which every store holds something: both memories listed at their first and last cell. -/
def full : State :=
  { ab 200 37 with rom := [(0, 0xB120), (63, 0xFFFF)], ram := [(0, 1), (5, 0x99), (31, 7)], pc := 63, icount := 41 }

/-- The same in Setup. -/
def fullSetup : State := { full with mode := .setup }

/-- Every opcode of the first statement, at the largest operands. -/
theorem witness_FormatsOfTheFixedLayouts :
    [0x0FFF, 0x1FFF, 0x2FFF, 0x3FFF, 0x4FFF, 0x5FFF, 0x7FFF, 0x8FFF, 0x9FFF, 0xAFFF, 0xDFFF, 0xFFFF].map
      (fun w : Word => w.toNat / 4096) = [0, 1, 2, 3, 4, 5, 7, 8, 9, 10, 13, 15] := by decide
theorem witness_FormatOfTheTwoNibbleForms :
    [0x6FF0, 0xBF0F, 0xCFF0, 0xE00F].map (fun w : Word => w.toNat / 4096) = [6, 11, 12, 14] := by decide
theorem witness_DecodeOfEncodeIsTheInstruction :
    ([.halt, .add 15 0 15, .sub 0 15 0, .and 15 15 15, .nor 8 7 8, .xor 7 8 7, .rsh 15 15, .cmp 15 15, .ldi 15 255,
      .ldm 15 255, .stm 15 255, .ldp 15 15, .stp 15 15, .brc 15 255, .brp 15 15, .jmp 4095] : List Instr).all
        Instr.wf = true := by decide
/-- All ignored bits of LDP at once, under each layout. -/
theorem witness_IgnoredBitsHaveNoEffect :
    (0x088F : Word) &&& ~~~(unusedBits .packedHigh (decodeWith .packedHigh 0xB120).opcode |||
        fieldTopBits .packedHigh (decodeWith .packedHigh 0xB120).opcode) = 0 ∧
      (0x08F8 : Word) &&& ~~~(unusedBits .low (decodeWith .low 0xB120).opcode |||
        fieldTopBits .low (decodeWith .low 0xB120).opcode) = 0 := by decide
theorem witness_HaltStopsAndAdvances : Instr.jmp 0 ≠ .halt := by decide
/-- For StmResultAndFrame, StpResultAndFrame, EveryWriteWrapsAndTruncates and StoreThenLoadGivesTheValue: canonical
memories with the first and the last cell listed, and empty ones. -/
theorem witness_memories : Memory.wf 32 full.ram = true ∧ Memory.wf 64 full.rom = true ∧
    Memory.wf 32 State.reset.ram = true ∧ Memory.wf 64 State.reset.rom = true := by decide
theorem witness_JmpTargetAndFrame : (0xF046 : Word).toNat / 4096 = 15 ∧ (0xFFFF : Word).toNat / 4096 = 15 := by decide
/-- Another register file that agrees on what `ADD r0, r1, r2` reads. -/
theorem witness_RegistersReadAndWritten :
    (∀ r ∈ regsRead (.add 0 1 2), readReg { full with x := #v[9, 200, 37, 9, 9, 9, 9, 9] } r = readReg full r) ∧
      regWritten (.add 0 1 2) = some 0 ∧ (∀ d, regWritten (.add 0 1 2) = some d → 7 % 8 ≠ d % 8) := by decide
/-- Another flag bank that agrees on flag 12. -/
theorem witness_FlagsReadAndWritten :
    isAlu (.rsh 0 1) = true ∧ (Instr.cmp 0 1).opcode = .cmp ∧ isAlu (.ldi 0 0) = false ∧
      readFlag { full with flag := #v[true, true, true, true, true, true, true, true, true, true, true, true, false,
        true, true, true] } 12 = readFlag full 12 := by decide
/-- The same, for an event that is none of `cycle` and the resets. -/
theorem witness_FlagsReadAndWritten_event :
    perform Config.default .requestStep fullSetup = .next { fullSetup with mode := .manualStep } := rfl
/-- Another ROM that agrees on the word at the pc. -/
theorem witness_RomIsReadByTheFetchOnly :
    romRead { full with rom := [(1, 0x8005), (63, 0xFFFF)] } full.pc.toNat = romRead full full.pc.toNat := by decide
/-- For the event clauses of RomIsReadByTheFetchOnly and RamReadersAndWriters: a reset answers a next state. -/
theorem witness_RamReadersAndWriters :
    perform Config.default .programReset full = .next (programReset full) ∧
      (Instr.stm 0 0).opcode ≠ .ldm ∧ (Instr.add 0 0 0).opcode ≠ .stm := by
  refine ⟨rfl, ?_⟩
  decide
theorem witness_PortsAreInert : HostEvent.cycle ≠ .programReset ∧ HostEvent.cycle ≠ .fullReset := by decide
theorem witness_FlagPairsComplementOnlyWhereWritten :
    (Instr.add 0 1 2).opcode = .add ∧ (Instr.sub 0 1 2).opcode = .sub ∧ (Instr.and 0 1 2).opcode = .and ∧
      (Instr.nor 0 1 2).opcode = .nor ∧ (Instr.xor 0 1 2).opcode = .xor ∧ (Instr.rsh 0 1).opcode = .rsh := by decide
/-- Two addresses of one cell, the first and the last. -/
theorem witness_StoreThenLoadGivesTheValue : 7 % 32 = 39 % 32 ∧ 31 % 32 = 255 % 32 ∧ 0 % 32 = 224 % 32 := by decide
/-- The word at 63 is a JMP. -/
theorem witness_StepRunsTheDecodedInstruction :
    full.mode ≠ .setup ∧ nextEvent full = .cycle ∧ decode (romRead full full.pc.toNat) = .jmp 4095 := by decide
theorem witness_PlacedWordRunsNext : 0 < 65536 ∧ 65535 < 65536 ∧ Memory.wf 64 fullSetup.rom = true := by decide
/-- For CycleAlwaysCompletes, CycleCountsAndLogsOnce, CounterWidthWraps and LastTouchedAfterEvents: both run modes, with
and without a counter width. -/
theorem witness_cycle_in_a_run_mode :
    full.mode ≠ .setup ∧ ({ full with mode := .manualStep } : State).mode ≠ .setup ∧
      Config.default.cntWidth = none ∧ (⟨.low, .execute, some 32⟩ : Config).cntWidth = some 32 := by decide
theorem witness_CycleInSetup :
    fullSetup.mode = .setup ∧ State.reset.mode = .setup ∧ (⟨.packedHigh, .execute, none⟩ : Config).setupCycle = .execute := by
  decide
/-- A HALT in ManualStep: the cycle answers a next state in Setup. -/
theorem witness_SetupOnlyByHaltOrReset :
    ({ full with mode := .manualStep, pc := 1 } : State).mode ≠ .setup ∧
      (match perform Config.default .cycle { full with mode := .manualStep, pc := 1 } with
        | .next t => t.mode == .setup
        | .fault _ => false
        | .refused _ => false) = true := by decide
/-- For the statements about `load`: Setup for its effect, a run mode for its refusal. -/
theorem witness_LoadChangesTheStoresOnly : fullSetup.mode = .setup ∧ full.mode ≠ .setup := by decide
/-- Images of the greatest length, with cells given and cells left out. -/
theorem witness_LoadedTextIsTheImage :
    (List.replicate 64 (some (0x8001 : Word))).length ≤ 64 ∧ ((List.replicate 31 none) ++ [some (255 : Byte)]).length ≤ 32 ∧
      fullSetup.mode = .setup ∧ Memory.wf 64 fullSetup.rom = true ∧ Memory.wf 32 fullSetup.ram = true := by decide
/-- The lines of the source's example S8: a clean one, then a malformed one of 16 characters. -/
theorem witness_MalformedRomLineStopsTheSource :
    CleanLines 16 ["1000000000000101".toList, "".toList, "000000000000000".toList] ∧
      '\n' ∉ "10000001000000x1".toList ∧ MalformedLine 16 "10000001000000x1".toList ∧ fullSetup.mode = .setup := by
  simp only [CleanLines, MalformedLine, ← classify_malformed]
  decide
/-- The same with 8 characters. -/
theorem witness_MalformedRamLineStopsTheSource :
    CleanLines 8 ["00001011".toList, "0000101".toList] ∧ '\n' ∉ "0001011x".toList ∧
      MalformedLine 8 "0001011x".toList ∧ fullSetup.mode = .setup := by
  simp only [CleanLines, MalformedLine, ← classify_malformed]
  decide
theorem full_inv : Inv full := ⟨by decide, by decide, by decide, by decide, rfl, rfl⟩
theorem reset_inv : Inv { State.reset with mode := .automatic } := ⟨rfl, rfl, rfl, rfl, rfl, rfl⟩
/-- A state with the invariant whose step answers a next state. -/
theorem witness_EveryStepKeepsTheInvariant : Inv full ∧ ∃ t, step full = .next t := ⟨full_inv, _, rfl⟩
theorem witness_SentinelFlagIdioms : Inv full := full_inv
/-- Both refusals happen. -/
theorem witness_StepCompletesExactlyForConformingHosts :
    step fullSetup = .refused .cycleInSetup ∧
      step { full with pending := [.load none none] } = .refused .loadOutsideSetup := ⟨rfl, rfl⟩
/-- Two states with one snapshot. -/
theorem witness_SnapshotDeterminesTheState :
    Inv full ∧ snapshot full = snapshot { full with freeIdx := full.freeIdx } ∧ full.pending = [] := ⟨full_inv, rfl, rfl⟩

end Sys2Proof.Tests
end

section
/-! What an instruction writes, computed apart from the writing: `effect i s` is all that the instruction `i` reads from
`s`, as the values it will write, and `Effect.apply` writes them. Which fields an instruction reads is then a fact about
`effect`, and which it writes a fact about the six forms of `apply`. -/

namespace Sys2Proof.Proofs

open Sys2Proof.Machine Sys2Proof.Claims

/-- The six ways in which instructions write the state. -/
inductive Effect where
  /-- A result and flags 0 to 7 (ADD, SUB, AND, NOR, XOR, RSH). -/
  | alu (dest result : Nat) (flags : List Bool) (length : flags.length = 8)
  /-- Flags 8 to 15 from two numbers (CMP). -/
  | compare (A B : Nat)
  /-- A value into a register (LDI, LDM, LDP). -/
  | load (dest value : Nat)
  /-- A value into a RAM cell (STM, STP). -/
  | store (cell value : Nat)
  /-- A pc (BRC, BRP, JMP). -/
  | jump (target : Nat)
  /-- The mode Setup (HALT). -/
  | stop

/-- ADD and SUB, from their result, carry and overflow (rules R141 to R144). -/
def Effect.arithmetic (dest result : Nat) (carry overflow : Bool) : Effect :=
  .alu dest result (arithmeticFlags result carry overflow) (arithmeticFlags_length _ _ _)

/-- AND, NOR, XOR and RSH, from their result (rule R145). -/
def Effect.bitwise (dest result : Nat) : Effect := .alu dest result (bitwiseFlags result) (bitwiseFlags_length _)

/-- The index a conditional branch leads to, before the pc keeps six bits of it (rules R200, R201). -/
def branchTarget (s : State) (cond target : Nat) : Nat := if readFlag s cond then target else s.pc.toNat + 1

/-- What an instruction will write, with every value read from the state before it (rule R122). -/
def effect (i : Instr) (s : State) : Effect :=
  match i with
  | .halt => .stop
  | .add d a b => .arithmetic d (sumResult (regOperand s a) (regOperand s b))
      (addCarry (regOperand s a) (regOperand s b)) (addOverflow (regOperand s a) (regOperand s b))
  | .sub d a b => .arithmetic d (differenceResult (regOperand s a) (regOperand s b))
      (subCarry (regOperand s a) (regOperand s b)) (subOverflow (regOperand s a) (regOperand s b))
  | .and d a b => .bitwise d (andResult (regOperand s a) (regOperand s b))
  | .nor d a b => .bitwise d (norResult (regOperand s a) (regOperand s b))
  | .xor d a b => .bitwise d (xorResult (regOperand s a) (regOperand s b))
  | .rsh d a => .bitwise d (rshResult (regOperand s a))
  | .cmp a b => .compare (regOperand s a) (regOperand s b)
  | .ldi d imm => .load d imm
  | .ldm d addr => .load d (memRead s (directCell addr)).toNat
  | .stm src addr => .store (directCell addr) (regOperand s src)
  | .ldp d p => .load d (memRead s (pointerCell s p)).toNat
  | .stp p src => .store (pointerCell s p) (regOperand s src)
  | .brc c addr => .jump (branchTarget s c (directTarget addr))
  | .brp c p => .jump (branchTarget s c (pointerTarget s p))
  | .jmp addr => .jump (directTarget addr)

/-- The state with the effect written into it. -/
def Effect.apply (e : Effect) (s : State) : State :=
  match e with
  | .alu d r fl _ => aluWriteback s d r fl
  | .compare A B => advancePc (writeFlags s 8 (compareFlags A B))
  | .load d v => loadInto s d v
  | .store c v => advancePc (memWrite s c v)
  | .jump t => setPc s t
  | .stop => advancePc (setMode s .setup)

/-- Every instruction answers a next state, its effect written into the state before it. -/
theorem exec_eq (i : Instr) (s : State) : exec i s = .next ((effect i s).apply s) := by
  cases i <;> rfl

/-! ### What an effect writes, store by store -/

/-- The register an effect writes and the number it writes there. -/
def Effect.newReg : Effect → Option (Nat × Nat)
  | .alu d r _ _ => some (d, r)
  | .load d v => some (d, v)
  | .compare _ _ | .store _ _ | .jump _ | .stop => none

/-- The value an effect writes into flag `k`, if it writes that flag. -/
def Effect.newFlag (e : Effect) (k : Nat) : Option Bool :=
  match e with
  | .alu _ _ fl _ => fl[k]?
  | .compare A B => if 8 ≤ k then (compareFlags A B)[k - 8]? else none
  | .load _ _ | .store _ _ | .jump _ | .stop => none

/-- The pc after an effect, before six bits of it are kept. -/
def Effect.newPc (e : Effect) (pc : Nat) : Nat :=
  match e with
  | .jump t => t
  | .alu _ _ _ _ | .compare _ _ | .load _ _ | .store _ _ | .stop => pc + 1

/-- The mode after an effect. -/
def Effect.newMode (e : Effect) (m : Mode) : Mode :=
  match e with
  | .stop => .setup
  | .alu _ _ _ _ | .compare _ _ | .load _ _ | .store _ _ | .jump _ => m

theorem readReg_apply (e : Effect) (s : State) (n : Nat) :
    readReg (e.apply s) n = match e.newReg with
      | some (d, v) => if n % 8 = d % 8 then BitVec.ofNat 8 v else readReg s n
      | none => readReg s n := by
  cases e with
  | alu d r fl _ => exact readReg_aluWriteback s d r fl n
  | load d v => exact readReg_loadInto s d v n
  | compare _ _ | store _ _ | jump _ | stop => rfl

theorem readFlag_apply (e : Effect) (s : State) (k : Nat) :
    readFlag (e.apply s) k = (e.newFlag (k % 16)).getD (readFlag s k) := by
  cases e with
  | alu d r fl h => exact readFlag_aluWriteback s d r fl h k
  | compare A B =>
    rw [Effect.apply, readFlag_advancePc, readFlag_writeFlags _ _ _ (by rw [compareFlags_length]), Effect.newFlag]
    split <;> rfl
  | load _ _ | store _ _ | jump _ | stop => rfl

theorem apply_pc (e : Effect) (s : State) : (e.apply s).pc.toNat = e.newPc s.pc.toNat % 64 := by
  cases e with
  | jump t => exact setPc_toNat s t
  | alu _ _ _ _ | compare _ _ | load _ _ | store _ _ | stop => exact advancePc_toNat s

/-- RAM stays canonical. -/
theorem apply_ram_wf (e : Effect) {s : State} (h : Memory.wf 32 s.ram = true) :
    Memory.wf 32 (e.apply s).ram = true := by
  cases e with
  | store c v => exact memWrite_wf h c v
  | alu _ _ _ _ | compare _ _ | load _ _ | jump _ | stop => exact h

/-- The state `o` with the RAM, the registers, the flags and the pc of `s`: the fields instructions work on. -/
def onto (o s : State) : State := { o with ram := s.ram, x := s.x, flag := s.flag, pc := s.pc }

/-- An effect works on RAM, registers, flags and pc in the same way whatever the other fields hold, and leaves those
fields but for the mode. With `o = s` this is the frame of every instruction. -/
theorem apply_onto (e : Effect) (o s : State) :
    e.apply (onto o s) = { onto o (e.apply s) with mode := e.newMode o.mode } := by
  cases e <;> rfl

theorem apply_frame (e : Effect) (s : State) :
    e.apply s = { onto s (e.apply s) with mode := e.newMode s.mode } := apply_onto e s s

/-! ### What an instruction reads, and which stores it writes -/

/-- No instruction reads a field other than RAM, registers, flags and pc. -/
theorem effect_onto (i : Instr) (o s : State) : effect i (onto o s) = effect i s := by
  cases i <;> rfl

/-- The only registers with an influence are those rule R24 lists as read. -/
theorem effect_of_regsRead {i : Instr} {s : State} {x' : Vector Byte 8}
    (h : ∀ r ∈ regsRead i, readReg { s with x := x' } r = readReg s r) :
    effect i { s with x := x' } = effect i s := by
  have hr : ∀ r ∈ regsRead i, regOperand { s with x := x' } r = regOperand s r := fun r hr => by
    rw [regOperand, regOperand, h r hr]
  cases i with
  | halt | ldi _ _ | ldm _ _ | brc _ _ | jmp _ => rfl
  | add _ a b | sub _ a b | and _ a b | nor _ a b | xor _ a b | cmp a b =>
    simp only [effect, hr a (by simp [regsRead]), hr b (by simp [regsRead])]
  | rsh _ a | stm a _ => simp only [effect, hr a (by simp [regsRead])]
  | ldp _ p => simp only [effect, pointerCell, hr p (by simp [regsRead])]; rfl
  | stp p src => simp only [effect, pointerCell, hr p (by simp [regsRead]), hr src (by simp [regsRead])]
  | brp _ p => simp only [effect, pointerTarget, hr p (by simp [regsRead])]; rfl

/-- The register written is the one rule R24 lists. -/
theorem effect_newReg (i : Instr) (s : State) : (effect i s).newReg.map Prod.fst = regWritten i := by
  cases i <;> rfl

/-- The flags have no influence but on BRC and BRP (rule R32). -/
theorem effect_of_not_branch {i : Instr} (hc : i.opcode ≠ .brc) (hp : i.opcode ≠ .brp) (s : State)
    (f : Vector Bool 16) : effect i { s with flag := f } = effect i s := by
  cases i with
  | brc _ _ => exact absurd rfl hc
  | brp _ _ => exact absurd rfl hp
  | _ => rfl

/-- The ALU instructions write flags 0 to 7 and no other (rule R32). -/
theorem newFlag_isSome_of_isAlu {i : Instr} (h : isAlu i = true) (s : State) (k : Nat) :
    ((effect i s).newFlag k).isSome ↔ k < 8 := by
  have alu : ∀ d r fl hl, ((Effect.alu d r fl hl).newFlag k).isSome ↔ k < 8 := fun d r fl hl => by
    simp [Effect.newFlag, hl]
  cases i with
  | add _ _ _ | sub _ _ _ | and _ _ _ | nor _ _ _ | xor _ _ _ | rsh _ _ => exact alu _ _ _ _
  | _ => cases h

/-- CMP writes flags 8 to 15 and no other (rule R32). -/
theorem newFlag_isSome_of_cmp {i : Instr} (h : i.opcode = .cmp) (s : State) {k : Nat} (hk : k < 16) :
    ((effect i s).newFlag k).isSome ↔ 8 ≤ k := by
  cases i with
  | cmp a b =>
    by_cases h8 : 8 ≤ k
    · simp [effect, Effect.newFlag, h8, compareFlags_length]; omega
    · simp [effect, Effect.newFlag, h8]
  | _ => cases h

/-- The other instructions write no flag (rule R32). -/
theorem newFlag_of_other {i : Instr} (ha : isAlu i = false) (hc : i.opcode ≠ .cmp) (s : State) (k : Nat) :
    (effect i s).newFlag k = none := by
  cases i with
  | add _ _ _ | sub _ _ _ | and _ _ _ | nor _ _ _ | xor _ _ _ | rsh _ _ => cases ha
  | cmp _ _ => exact absurd rfl hc
  | _ => rfl

end Sys2Proof.Proofs
end

section
/-! The events: the cycle and the host's commands as the one state each of them leads to, and what can relate two states
before and after a `load`. -/

namespace Sys2Proof.Proofs

open Sys2Proof.Machine Sys2Proof.Claims

theorem mapNext_ite (f : State → State) (c : Prop) [Decidable c] (a b : Host.Outcome State Fault Refusal) :
    mapNext f (if c then a else b) = if c then mapNext f a else mapNext f b := apply_ite _ _ _ _

/-! ### The cycle -/

/-- The instruction the next cycle runs (rule R120). -/
def fetched (cfg : Config) (s : State) : Instr := decodeWith cfg.twoNibbleLayout (fetch s)

/-- The state a cycle leads to where its precondition holds. -/
def afterCycle (cfg : Config) (s : State) : State :=
  retire cfg (fetched cfg s) s ((effect (fetched cfg s) s).apply s)

theorem runCycle_eq (cfg : Config) (s : State) : runCycle cfg s = .next (afterCycle cfg s) :=
  runCycle_of_exec (exec_eq _ _)

/-- The precondition of `cycle` (rule R124) is all that can refuse one. -/
theorem perform_cycle (cfg : Config) (s : State) :
    perform cfg .cycle s =
      if s.mode = .setup ∧ cfg.setupCycle = .refuse then .refused .cycleInSetup else .next (afterCycle cfg s) := by
  rw [perform, cycle]
  split <;> simp_all [runCycle_eq]

theorem cycle_eq_of_run (cfg : Config) {s : State} (h : s.mode ≠ .setup) : cycle cfg s = .next (afterCycle cfg s) :=
  (cycle_of_run h).trans (runCycle_eq cfg s)

/-- A cycle works on the fields of `onto` and on the last-touched indices in the same way whatever the mode, the ports,
the counter and the log hold. With `o = s` this is the frame of every cycle. -/
theorem afterCycle_onto (cfg : Config) {o s : State} (hr : o.rom = s.rom) (hl : o.last = s.last) :
    afterCycle cfg (onto o s) = { onto o (afterCycle cfg s) with
      mode := (effect (fetched cfg s) s).newMode o.mode
      icount := keepCount cfg (o.icount + 1)
      trace := pushEntry o.trace (.executed (fetched cfg s))
      last := touchedBy (fetched cfg s) s } := by
  have hf : fetched cfg (onto o s) = fetched cfg s := by simp only [fetched, fetch, romRead, onto, hr]
  rw [afterCycle, hf, effect_onto, apply_onto, retire, touchedBy_congr (s := s) (s' := onto o s) rfl rfl rfl hl]
  rfl

theorem afterCycle_frame (cfg : Config) (s : State) :
    afterCycle cfg s = { onto s (afterCycle cfg s) with
      mode := (effect (fetched cfg s) s).newMode s.mode
      icount := keepCount cfg (s.icount + 1)
      trace := pushEntry s.trace (.executed (fetched cfg s))
      last := touchedBy (fetched cfg s) s } := afterCycle_onto cfg rfl rfl

/-! ### The host's commands -/

theorem perform_requestStep (cfg : Config) (s : State) :
    perform cfg .requestStep s = .next (setMode s .manualStep) := by
  rw [perform, requestStep]
  split
  · rfl
  · rfl
  next h => rw [setMode, ← h]

theorem perform_requestManualMode (cfg : Config) (s : State) :
    perform cfg .requestManualMode s = .next (setMode s .manualStep) := perform_requestStep cfg s

theorem perform_requestAutomaticMode (cfg : Config) (s : State) :
    perform cfg .requestAutomaticMode s = .next (setMode s (if s.mode = .setup then .automatic else s.mode)) := by
  rw [perform, requestAutomaticMode]
  split
  next h => rw [h]; rfl
  next h => rw [h, if_neg (by decide), ← h]; rfl
  next h => rw [h, if_neg (by decide), ← h]; rfl

/-- The precondition of `load` (rule R238) is all that can refuse one. -/
theorem perform_load (cfg : Config) (rom ram : Option (List Char)) (s : State) :
    perform cfg (.load rom ram) s =
      if s.mode = .setup then .next (loadSources rom ram s) else .refused .loadOutsideSetup := by
  rw [perform, load]
  split <;> simp_all

/-- What an event leads to when it is accepted: one constructor per kind of event, with its precondition. -/
inductive Leads (cfg : Config) (s : State) : HostEvent → State → Prop where
  | cycle (h : s.mode ≠ .setup ∨ cfg.setupCycle = .execute) : Leads cfg s .cycle (afterCycle cfg s)
  | load (rom ram : Option (List Char)) (h : s.mode = .setup) : Leads cfg s (.load rom ram) (loadSources rom ram s)
  | programReset : Leads cfg s .programReset (programReset s)
  | fullReset : Leads cfg s .fullReset (fullReset s)
  | requestStep : Leads cfg s .requestStep (setMode s .manualStep)
  | requestManualMode : Leads cfg s .requestManualMode (setMode s .manualStep)
  | requestAutomaticMode :
      Leads cfg s .requestAutomaticMode (setMode s (if s.mode = .setup then .automatic else s.mode))

/-- An event that answers a next state leads to that state. -/
theorem leads_of_perform {cfg : Config} {e : HostEvent} {s t : State} (h : perform cfg e s = .next t) :
    Leads cfg s e t := by
  cases e with
  | cycle =>
    rw [perform_cycle] at h
    split at h
    · cases h
    next hm =>
      cases h
      cases hc : cfg.setupCycle with
      | refuse => exact .cycle (.inl fun hs => hm ⟨hs, hc⟩)
      | execute => exact .cycle (.inr hc)
  | load rom ram =>
    rw [perform_load] at h
    split at h
    next hm => cases h; exact .load rom ram hm
    · cases h
  | programReset => cases h; exact .programReset
  | fullReset => cases h; exact .fullReset
  | requestStep => rw [perform_requestStep] at h; cases h; exact .requestStep
  | requestManualMode => rw [perform_requestManualMode] at h; cases h; exact .requestManualMode
  | requestAutomaticMode => rw [perform_requestAutomaticMode] at h; cases h; exact .requestAutomaticMode

/-! ### Reset values -/

theorem readReg_of_zero {s : State} (h : s.x = Vector.replicate 8 0) (n : Nat) : readReg s n = 0 := by
  simp [readReg, h]

theorem readIn_of_zero {s : State} (h : s.inPort = Vector.replicate 8 0) (n : Nat) : readIn s n = 0 := by
  simp [readIn, h]

theorem readOut_of_zero {s : State} (h : s.outPort = Vector.replicate 8 0) (n : Nat) : readOut s n = 0 := by
  simp [readOut, h]

/-- After a reset flag 15 is true and every other flag false (rule R46). -/
theorem readFlag_of_resetFlags {s : State} (h : s.flag = resetFlags) {k : Nat} (hk : k < 16) :
    readFlag s k = true ↔ k = 15 := by
  have bank : ∀ k : Nat, k < 16 → (readFlag State.reset k = true ↔ k = 15) := by decide
  rw [← bank k hk, readFlag, readFlag, h]
  rfl

/-! ### Relations a `load` keeps -/

/-- A relation between states that each piece of a `load` keeps. -/
structure LoadStable (R : State → State → Prop) : Prop where
  romWrite : ∀ {s t : State} (i v : Nat), R s t → R (romWrite s i v) (romWrite t i v)
  memWrite : ∀ {s t : State} (a v : Nat), R s t → R (memWrite s a v) (memWrite t a v)
  pushTrace : ∀ {s t : State} (e : TraceEntry), R s t → R (pushTrace s e) (pushTrace t e)
  pushLoadReports : ∀ {s t : State}, R s t → R (pushLoadReports s) (pushLoadReports t)

/-- What the writes keep between two states, processing the same lines keeps, and both stop at the same line. -/
theorem loadLines_related {R : State → State → Prop} {write : State → Nat → Nat → State}
    (hw : ∀ {s t : State} (i v : Nat), R s t → R (write s i v) (write t i v)) (len i : Nat)
    (lines : List (List Char)) {s t : State} (h : R s t) :
    R (loadLines len write i lines s).1 (loadLines len write i lines t).1 ∧
      (loadLines len write i lines s).2 = (loadLines len write i lines t).2 := by
  induction lines generalizing i s t with
  | nil => exact ⟨h, rfl⟩
  | cons l ls ih =>
    rw [loadLines, loadLines]
    cases classify len l with
    | skipped => exact ih _ h
    | valid v => exact ih _ (hw _ _ h)
    | malformed => exact ⟨h, rfl⟩

/-- A ROM text as one push after its lines. -/
theorem loadRom_some (text : List Char) (s : State) :
    loadRom (some text) s = pushTrace (loadLines 16 romWrite 0 (splitLines text) s).1
      (if (loadLines 16 romWrite 0 (splitLines text) s).2 then .romLoaded else .romCorrupt) := by
  rw [loadRom]
  split <;> simp_all

/-- A RAM text as its lines, and a push when they were stopped. -/
theorem loadRam_some (text : List Char) (s : State) :
    loadRam (some text) s =
      if (loadLines 8 memWrite 0 (splitLines text) s).2 then (loadLines 8 memWrite 0 (splitLines text) s).1
      else pushTrace (loadLines 8 memWrite 0 (splitLines text) s).1 .ramCorrupt := by
  rw [loadRam]
  split <;> simp_all

section
variable {R : State → State → Prop} (hR : LoadStable R)
include hR

theorem LoadStable.loadRom (src : Option (List Char)) {s t : State} (h : R s t) :
    R (loadRom src s) (loadRom src t) := by
  cases src with
  | none => exact hR.pushTrace _ h
  | some text =>
    obtain ⟨hl, hb⟩ := loadLines_related hR.romWrite 16 0 (splitLines text) h
    rw [loadRom_some, loadRom_some, hb]
    exact hR.pushTrace _ hl

theorem LoadStable.loadRam (src : Option (List Char)) {s t : State} (h : R s t) :
    R (loadRam src s) (loadRam src t) := by
  cases src with
  | none => exact h
  | some text =>
    obtain ⟨hl, hb⟩ := loadLines_related hR.memWrite 8 0 (splitLines text) h
    rw [loadRam_some, loadRam_some, hb]
    split
    · exact hl
    · exact hR.pushTrace _ hl

theorem LoadStable.loadSources (rom ram : Option (List Char)) {s t : State} (h : R s t) :
    R (loadSources rom ram s) (loadSources rom ram t) :=
  hR.pushLoadReports (hR.loadRam ram (hR.pushLoadReports (hR.loadRom rom (hR.pushLoadReports h))))

end

end Sys2Proof.Proofs
end

section
/-! The invariant (O56, O57): what each piece of an event keeps, and then every event. -/

namespace Sys2Proof.Proofs

open Sys2Proof.Machine Sys2Proof.Claims

/-- The invariant speaks of the memories, the flags and the ports only. -/
theorem inv_congr {s t : State} (h : Inv s) (hrom : t.rom = s.rom) (hram : t.ram = s.ram) (hflag : t.flag = s.flag)
    (hin : t.inPort = s.inPort) (hout : t.outPort = s.outPort) : Inv t where
  romWf := hrom ▸ h.romWf
  ramWf := hram ▸ h.ramWf
  never := by rw [← h.never, readFlag, readFlag, hflag]
  always := by rw [← h.always, readFlag, readFlag, hflag]
  inZero := hin.trans h.inZero
  outZero := hout.trans h.outZero

/-- Flag 14 stays false and flag 15 true: only CMP writes them, with these values (rule R33). -/
theorem newFlag_sentinels (i : Instr) (s : State) :
    ((effect i s).newFlag 14).getD false = false ∧ ((effect i s).newFlag 15).getD true = true := by
  cases i <;> exact ⟨rfl, rfl⟩

theorem inv_effect (i : Instr) {s : State} (h : Inv s) : Inv ((effect i s).apply s) where
  romWf := by rw [apply_frame]; exact h.romWf
  ramWf := apply_ram_wf _ h.ramWf
  never := by rw [readFlag_apply, h.never]; exact (newFlag_sentinels i s).1
  always := by rw [readFlag_apply, h.always]; exact (newFlag_sentinels i s).2
  inZero := by rw [apply_frame]; exact h.inZero
  outZero := by rw [apply_frame]; exact h.outZero

theorem inv_afterCycle (cfg : Config) {s : State} (h : Inv s) : Inv (afterCycle cfg s) :=
  inv_congr (inv_effect (fetched cfg s) h) rfl rfl rfl rfl rfl

/-- Any canonical ROM beside the reset values of RAM, flags and ports (rule R46) makes the invariant. -/
theorem inv_of_reset_values {s : State} (hrom : Memory.wf 64 s.rom = true) (hram : s.ram = [])
    (hflag : s.flag = resetFlags) (hin : s.inPort = Vector.replicate 8 0) (hout : s.outPort = Vector.replicate 8 0) :
    Inv s where
  romWf := hrom
  ramWf := by rw [hram]; rfl
  never := by rw [readFlag, hflag]; rfl
  always := by rw [readFlag, hflag]; rfl
  inZero := hin
  outZero := hout

theorem inv_programReset {s : State} (h : Memory.wf 64 s.rom = true) : Inv (programReset s) :=
  inv_of_reset_values h rfl rfl rfl rfl

theorem loadStable_inv : LoadStable fun s _ => Inv s where
  romWrite i v h := { h with romWf := romWrite_wf h.romWf i v }
  memWrite a v h := { h with ramWf := memWrite_wf h.ramWf a v }
  pushTrace _ h := inv_congr h rfl rfl rfl rfl rfl
  pushLoadReports h := inv_congr h rfl rfl rfl rfl rfl

theorem inv_of_leads {cfg : Config} {e : HostEvent} {s t : State} (h : Inv s) (hl : Leads cfg s e t) : Inv t := by
  cases hl with
  | cycle _ => exact inv_afterCycle cfg h
  | load rom ram _ => exact loadStable_inv.loadSources rom ram (t := s) h
  | programReset => exact inv_programReset h.romWf
  | fullReset => exact inv_programReset rfl
  | requestStep | requestManualMode | requestAutomaticMode => exact inv_congr h rfl rfl rfl rfl rfl

theorem inv_of_stepWith {cfg : Config} {s t : State} (h : Inv s) (hs : stepWith cfg s = .next t) : Inv t :=
  inv_of_leads (inv_congr h rfl rfl rfl rfl rfl : Inv { s with pending := s.pending.tail }) (leads_of_perform hs)

/-- Settles O56: whatever the event, what it leads to has the invariant. -/
theorem everyStepKeepsTheInvariant : Obligations.EveryStepKeepsTheInvariant :=
  ⟨fun _ _ => inv_of_stepWith, fun _ _ _ => inv_of_stepWith⟩

/-- Settles O57: the power-on values are those of a reset. -/
theorem powerOnHasTheInvariant : Obligations.PowerOnHasTheInvariant := inv_of_reset_values rfl rfl rfl rfl rfl

end Sys2Proof.Proofs
end

section
/-! What one instruction does to the pc, the registers and the flags, and what it reads (O24, O25, O26, O34). -/

namespace Sys2Proof.Proofs

open Sys2Proof.Machine Sys2Proof.Claims

/-- Settles O24: only the three branches give the pc, every other effect advances it. -/
theorem pcAfterEachInstruction : Obligations.PcAfterEachInstruction := by
  intro i s
  refine ⟨_, exec_eq i s, (apply_pc (effect i s) s).trans ?_⟩
  have taken : ∀ c n : Nat, branchTarget s c (n % 64) % 64 =
      if readFlag s c = true then n % 64 else (s.pc.toNat + 1) % 64 := fun c n => by
    rw [branchTarget, apply_ite (· % 64), Nat.mod_mod]
  cases i with
  | brc c addr => exact taken c addr
  | brp c p => exact taken c (regOperand s p)
  | jmp addr => exact Nat.mod_mod addr 64
  | _ => rfl

/-! ### Registers -/

/-- A register that rule R24 does not list as written reads as before. -/
theorem readReg_apply_of_not_written {i : Instr} (s : State) {n : Nat}
    (h : ∀ d, regWritten i = some d → n % 8 ≠ d % 8) : readReg ((effect i s).apply s) n = readReg s n := by
  rw [readReg_apply]
  rw [← effect_newReg i s] at h
  split
  next d v hw => exact if_neg (h d (by rw [hw]; rfl))
  · rfl

/-- The register written takes the effect's value, whatever the registers held. -/
theorem readReg_apply_congr {e : Effect} {d : Nat} (h : e.newReg.map Prod.fst = some d) (s s' : State) :
    readReg (e.apply s) d = readReg (e.apply s') d := by
  obtain ⟨⟨_, v⟩, hw, rfl⟩ := Option.map_eq_some_iff.mp h
  simp only [readReg_apply, hw, if_true]

/-- An effect changes no other field in a way that depends on the registers. -/
theorem apply_regs (e : Effect) (s : State) (x' : Vector Byte 8) :
    e.apply { s with x := x' } = { e.apply s with x := (e.apply { s with x := x' }).x } := by
  cases e <;> rfl

/-- Settles O25: the effect depends on the registers read only, and writes the register listed only. -/
theorem registersReadAndWritten : Obligations.RegistersReadAndWritten := by
  refine ⟨fun i s => ⟨_, exec_eq i s, fun n h => readReg_apply_of_not_written s h⟩, fun i s x' h => ?_⟩
  refine ⟨_, _, exec_eq i s, exec_eq i _, ?_, fun d hd => ?_⟩
  · rw [effect_of_regsRead h]
    exact apply_regs _ s x'
  · rw [effect_of_regsRead h]
    exact readReg_apply_congr ((effect_newReg i s).trans hd) _ _

/-! ### Flags -/

/-- A flag that the effect does not write reads as before. -/
theorem readFlag_apply_of_not_written {e : Effect} {k : Nat} (h : ¬(e.newFlag (k % 16)).isSome) (s : State) :
    readFlag (e.apply s) k = readFlag s k := by
  rw [readFlag_apply, Option.not_isSome_iff_eq_none.mp h]
  rfl

/-- A flag that the effect writes takes its value, whatever the flags held. -/
theorem readFlag_apply_congr {e : Effect} {k : Nat} (h : (e.newFlag (k % 16)).isSome) (s s' : State) :
    readFlag (e.apply s') k = readFlag (e.apply s) k := by
  obtain ⟨p, hp⟩ := Option.isSome_iff_exists.mp h
  rw [readFlag_apply, readFlag_apply, hp]
  rfl

/-- An effect changes no other field in a way that depends on the flags. -/
theorem apply_flags (e : Effect) (s : State) (f : Vector Bool 16) :
    e.apply { s with flag := f } = { e.apply s with flag := (e.apply { s with flag := f }).flag } := by
  cases e <;> rfl

/-- A branch reads no flag but `cond`. -/
theorem branchTarget_flags {c : Nat} {s : State} {f : Vector Bool 16}
    (h : readFlag { s with flag := f } c = readFlag s c) (target : Nat) :
    branchTarget { s with flag := f } c target = branchTarget s c target := by
  rw [branchTarget, h]
  rfl

theorem leads_flag {cfg : Config} {e : HostEvent} {s t : State} (hl : Leads cfg s e t) (hc : e ≠ .cycle)
    (hp : e ≠ .programReset) (hf : e ≠ .fullReset) : t.flag = s.flag := by
  cases hl with
  | cycle _ => exact absurd rfl hc
  | programReset => exact absurd rfl hp
  | fullReset => exact absurd rfl hf
  | load rom ram _ => rw [loadSources_frame]
  | requestStep | requestManualMode | requestAutomaticMode => rfl

/-- Settles O26: which flags an effect writes, that only a branch's effect depends on one, and which events keep all. -/
theorem flagsReadAndWritten : Obligations.FlagsReadAndWritten := by
  have bit_lt : ∀ k : Nat, k % 16 < 16 := fun k => Nat.mod_lt k (by decide)
  refine ⟨fun i s => ⟨_, exec_eq i s, fun ha k hk => ?_, fun hc k hk => ?_, fun ha hc k => ?_⟩,
    fun i s f => ?_, fun c n s f h => ?_, fun _ _ _ _ hc hp hf h => leads_flag (leads_of_perform h) hc hp hf⟩
  · exact readFlag_apply_of_not_written (by rw [newFlag_isSome_of_isAlu ha]; omega) s
  · exact readFlag_apply_of_not_written (by rw [newFlag_isSome_of_cmp hc s (bit_lt k)]; omega) s
  · exact readFlag_apply_of_not_written (by rw [newFlag_of_other ha hc]; decide) s
  · refine ⟨_, _, exec_eq i s, exec_eq i _, fun ha k hk => ?_, fun hc k hk => ?_, fun hb hp => ?_⟩
    · rw [effect_of_not_branch (fun h => ?_) (fun h => ?_)]
      exact readFlag_apply_congr ((newFlag_isSome_of_isAlu ha s _).mpr hk) _ _
      all_goals rw [isAlu, h] at ha; cases ha
    · rw [effect_of_not_branch (by rw [hc]; decide) (by rw [hc]; decide)]
      exact readFlag_apply_congr ((newFlag_isSome_of_cmp hc s (bit_lt k)).mpr hk) _ _
    · rw [effect_of_not_branch hb hp]
      exact apply_flags _ s f
  · constructor
    · rw [exec_eq, exec_eq, effect, branchTarget_flags h]
      rfl
    · rw [exec_eq, exec_eq, effect, branchTarget_flags h]
      rfl

/-! ### Complementary pairs -/

/-- The flags of a list of eight are four pairs of a flag and its complement. -/
def ComplementaryPairs (fl : List Bool) : Prop := ∀ k, k < 4 → ∃ b, fl[2 * k]? = some b ∧ fl[2 * k + 1]? = some (!b)

theorem arithmeticFlags_pairs (r : Nat) (c v : Bool) : ComplementaryPairs (arithmeticFlags r c v) := by
  intro k hk
  interval_cases k <;> exact ⟨_, rfl, rfl⟩

theorem compareFlags_pairs (A B : Nat) : ComplementaryPairs (compareFlags A B) := by
  intro k hk
  have complement : ∀ (p q : Prop) [Decidable p] [Decidable q], (q ↔ ¬p) → some (decide q) = some (!decide p) :=
    fun p q _ _ h => by rw [← decide_not, decide_eq_decide.mpr h]
  interval_cases k
  · exact ⟨_, rfl, complement (A > B) (A ≤ B) Nat.not_lt.symm⟩
  · exact ⟨_, rfl, complement (A < B) (A ≥ B) Nat.not_lt.symm⟩
  · exact ⟨_, rfl, complement (A = B) (A ≠ B) Iff.rfl⟩
  · exact ⟨_, rfl, rfl⟩

/-- Two flags that an effect writes with complementary values read as complements. -/
theorem readFlag_apply_pair {e : Effect} {j k : Nat}
    (h : ∃ b, e.newFlag (j % 16) = some b ∧ e.newFlag (k % 16) = some (!b)) (s : State) :
    readFlag (e.apply s) k = !readFlag (e.apply s) j := by
  obtain ⟨b, hj, hk⟩ := h
  rw [readFlag_apply, readFlag_apply, hj, hk]
  rfl

theorem newFlag_pair_of_arithmetic {i : Instr} (h : i.opcode = .add ∨ i.opcode = .sub) (s : State) {k : Nat}
    (hk : k < 4) : ∃ b, (effect i s).newFlag (2 * k) = some b ∧ (effect i s).newFlag (2 * k + 1) = some (!b) := by
  cases i with
  | add _ _ _ | sub _ _ _ => exact arithmeticFlags_pairs _ _ _ k hk
  | _ => rcases h with h | h <;> cases h

theorem newFlag_of_bitwise {i : Instr} (h : i.opcode = .and ∨ i.opcode = .nor ∨ i.opcode = .xor ∨ i.opcode = .rsh)
    (s : State) {k : Nat} (hl : 2 ≤ k) (hk : k < 6) : (effect i s).newFlag k = some false := by
  have bitwise : ∀ r, (bitwiseFlags r)[k]? = some false := fun r => by interval_cases k <;> rfl
  cases i with
  | and _ _ _ | nor _ _ _ | xor _ _ _ | rsh _ _ => exact bitwise _
  | _ => rcases h with h | h | h | h <;> cases h

/-- Settles O34, from the lists of flags each family writes. -/
theorem flagPairsComplementOnlyWhereWritten : Obligations.FlagPairsComplementOnlyWhereWritten := by
  refine ⟨fun i s k h hk => ⟨_, exec_eq i s, readFlag_apply_pair ?_ s⟩,
    fun a b s k hl hk => ⟨_, exec_eq _ s, readFlag_apply_pair ?_ s⟩,
    fun i s k h hl hk => ⟨_, exec_eq i s, ?_⟩,
    fun _ s => ⟨_, rfl, fun k hk => readFlag_of_resetFlags rfl hk⟩⟩
  · rw [Nat.mod_eq_of_lt (by omega), Nat.mod_eq_of_lt (by omega)]
    exact newFlag_pair_of_arithmetic h s hk
  · rw [Nat.mod_eq_of_lt (by omega), Nat.mod_eq_of_lt (by omega), effect, Effect.newFlag, Effect.newFlag,
      if_pos (by omega), if_pos (by omega), show 2 * k - 8 = 2 * (k - 4) by omega,
      show 2 * k + 1 - 8 = 2 * (k - 4) + 1 by omega]
    exact compareFlags_pairs _ _ (k - 4) (by omega)
  · rw [readFlag_apply, Nat.mod_eq_of_lt (by omega), newFlag_of_bitwise h s hl hk]
    rfl

end Sys2Proof.Proofs
end

section
/-! What influences nothing: the ports, the control state and the trace log (O29, O30, O31). -/

namespace Sys2Proof.Proofs

open Sys2Proof.Machine Sys2Proof.Claims

/-! ### The ports -/

/-- The state with the port latches replaced. -/
def withPorts (p q : Vector Byte 8) (s : State) : State := { s with inPort := p, outPort := q }

theorem loadStable_withPorts (p q : Vector Byte 8) : LoadStable fun s t => t = withPorts p q s where
  romWrite _ _ h := by rw [h]; rfl
  memWrite _ _ h := by rw [h]; rfl
  pushTrace _ h := by rw [h]; rfl
  pushLoadReports h := by rw [h]; rfl

theorem afterCycle_withPorts (cfg : Config) (p q : Vector Byte 8) (s : State) :
    afterCycle cfg (withPorts p q s) = withPorts p q (afterCycle cfg s) := by
  refine (afterCycle_onto cfg (o := withPorts p q s) (s := s) rfl rfl).trans ?_
  rw [afterCycle_frame cfg s]
  rfl

theorem perform_withPorts (cfg : Config) {e : HostEvent} (p q : Vector Byte 8) (s : State)
    (hp : e ≠ .programReset) (hf : e ≠ .fullReset) :
    perform cfg e (withPorts p q s) = mapNext (withPorts p q) (perform cfg e s) := by
  cases e with
  | programReset => exact absurd rfl hp
  | fullReset => exact absurd rfl hf
  | cycle =>
    rw [perform_cycle, perform_cycle, afterCycle_withPorts, mapNext_ite]
    rfl
  | load rom ram =>
    rw [perform_load, perform_load, (loadStable_withPorts p q).loadSources rom ram (s := s) rfl,
      mapNext_ite]
    rfl
  | requestStep => rw [perform_requestStep, perform_requestStep]; rfl
  | requestManualMode => rw [perform_requestManualMode, perform_requestManualMode]; rfl
  | requestAutomaticMode => rw [perform_requestAutomaticMode, perform_requestAutomaticMode]; rfl

/-- Settles O29: every event but the resets commutes with replacing the ports, and the resets zero them. -/
theorem portsAreInert : Obligations.PortsAreInert :=
  ⟨fun cfg _ s p q hp hf => perform_withPorts cfg p q s hp hf, fun _ _ => ⟨_, _, rfl, rfl, fun n =>
    ⟨readIn_of_zero rfl n, readOut_of_zero rfl n, readIn_of_zero rfl n, readOut_of_zero rfl n⟩⟩⟩

/-! ### The control state -/

theorem effect_newMode (i : Instr) (s : State) (m : Mode) :
    (effect i s).newMode m = if i = .halt then .setup else m := by
  cases i <;> rfl

/-- Settles O30: an effect neither depends on the control state nor writes it, but for HALT's mode. -/
theorem noInstructionReadsTheControlState : Obligations.NoInstructionReadsTheControlState := by
  intro i s m tr n lt p f
  change exec i (onto { s with mode := m, trace := tr, icount := n, last := lt, pending := p, freeIdx := f } s) = _
  rw [exec_eq, exec_eq, effect_onto, apply_onto, effect_newMode, apply_frame (effect i s) s]
  rfl

/-! ### The trace log -/

/-- The state with the trace log replaced. -/
def withTrace (tr : Vector TraceEntry 7) (s : State) : State := { s with trace := tr }

theorem loadStable_withTrace : LoadStable fun s t => ∃ tr, t = withTrace tr s where
  romWrite _ _ := by rintro ⟨tr, rfl⟩; exact ⟨tr, rfl⟩
  memWrite _ _ := by rintro ⟨tr, rfl⟩; exact ⟨tr, rfl⟩
  pushTrace _ := by rintro ⟨_, rfl⟩; exact ⟨_, rfl⟩
  pushLoadReports {_ _} := by rintro ⟨_, rfl⟩; exact ⟨_, rfl⟩

theorem afterCycle_withTrace (cfg : Config) (tr blank : Vector TraceEntry 7) (s : State) :
    withTrace blank (afterCycle cfg (withTrace tr s)) = withTrace blank (afterCycle cfg s) := by
  rw [show afterCycle cfg (withTrace tr s) = _ from afterCycle_onto cfg (o := withTrace tr s) (s := s) rfl rfl,
    afterCycle_frame cfg s]
  rfl

theorem perform_withTrace (cfg : Config) (e : HostEvent) (tr blank : Vector TraceEntry 7) (s : State) :
    mapNext (withTrace blank) (perform cfg e (withTrace tr s)) = mapNext (withTrace blank) (perform cfg e s) := by
  cases e with
  | programReset | fullReset => rfl
  | cycle =>
    rw [perform_cycle, perform_cycle, mapNext_ite, mapNext_ite]
    exact if_congr Iff.rfl rfl (congrArg Host.Outcome.next (afterCycle_withTrace cfg tr blank s))
  | load rom ram =>
    obtain ⟨tr', h⟩ := loadStable_withTrace.loadSources rom ram (s := s) ⟨tr, rfl⟩
    rw [perform_load, perform_load, h, mapNext_ite, mapNext_ite]
    rfl
  | requestStep => rw [perform_requestStep, perform_requestStep]; rfl
  | requestManualMode => rw [perform_requestManualMode, perform_requestManualMode]; rfl
  | requestAutomaticMode => rw [perform_requestAutomaticMode, perform_requestAutomaticMode]; rfl

/-- Settles O31: the log decides neither which event comes next nor, up to the log, what it leads to. -/
theorem traceInfluencesNothing : Obligations.TraceInfluencesNothing := fun cfg s tr blank =>
  perform_withTrace cfg (nextEvent s) tr blank { s with pending := s.pending.tail }

end Sys2Proof.Proofs
end

section
/-! The counter, the last-touched indices and the power-on state (O41, O44, O51). -/

namespace Sys2Proof.Proofs

open Sys2Proof.Machine Sys2Proof.Claims

/-- Settles O41: the bookkeeping of a cycle keeps the count as the width says. -/
theorem counterWidthWraps : Obligations.CounterWidthWraps := fun cfg k s hm hk =>
  ⟨_, cycle_eq_of_run cfg hm, by rw [afterCycle_frame, keepCount, hk]⟩

/-! ### Last-touched indices -/

theorem touchedBy_rom (i : Instr) (s : State) : (touchedBy i s).rom = some s.pc.toNat := by
  have fetch : some (s.pc.toNat % 64) = some s.pc.toNat := congrArg some (Nat.mod_eq_of_lt s.pc.isLt)
  cases i <;> exact fetch

theorem touchedBy_ports (i : Instr) (s : State) :
    (touchedBy i s).inPort = s.last.inPort ∧ (touchedBy i s).outPort = s.last.outPort := by
  cases i <;> exact ⟨rfl, rfl⟩

theorem touchedBy_x {i : Instr} {d : Nat} (h : regWritten i = some d) (s : State) :
    (touchedBy i s).x = some (d % 8) := by
  cases i with
  | add _ _ _ | sub _ _ _ | and _ _ _ | nor _ _ _ | xor _ _ _ | rsh _ _ | ldi _ _ | ldm _ _ | ldp _ _ => cases h; rfl
  | _ => cases h

/-- Settles O44, from the indices `touchedBy` gives store by store. -/
theorem lastTouchedAfterEvents : Obligations.LastTouchedAfterEvents := by
  refine ⟨fun cfg s hm => ⟨_, cycle_eq_of_run cfg hm, touchedBy_rom _ s, (touchedBy_ports _ s).1,
    (touchedBy_ports _ s).2, fun d hd => touchedBy_x hd s, ?_⟩, fun _ _ => ⟨_, rfl, rfl⟩⟩
  rw [show (afterCycle cfg s).last = touchedBy (decodeWith cfg.twoNibbleLayout (romRead s s.pc.toNat)) s from rfl]
  generalize decodeWith cfg.twoNibbleLayout (romRead s s.pc.toNat) = i
  cases i <;> rfl

/-- Settles O51: the values of `State.reset`, which are those `programReset` writes and an empty ROM. -/
theorem powerOnIsFullReset : Obligations.PowerOnIsFullReset :=
  ⟨fun n => ⟨memory_read_nil _, memory_read_nil _, readReg_of_zero rfl n, readIn_of_zero rfl n, readOut_of_zero rfl n⟩,
    fun _ => readFlag_of_resetFlags rfl, rfl, rfl, rfl, fun _ _ => ⟨_, rfl, rfl⟩⟩

end Sys2Proof.Proofs
end

section
/-! The memories: who reads and writes ROM and RAM, where a write lands, and a load after a store (O27, O28, O35,
O36). -/

namespace Sys2Proof.Proofs

open Sys2Proof.Machine Sys2Proof.Claims

/-! ### Writes -/

/-- Settles O36, from what each store reads after a write to it: the value as the cell's width keeps it. -/
theorem everyWriteWrapsAndTruncates : Obligations.EveryWriteWrapsAndTruncates := by
  intro s n v m hrom hram
  refine ⟨?_, ?_, ?_, fun b => readFlag_writeFlag s n b m⟩
  · rw [readReg_writeReg, apply_ite BitVec.toNat, BitVec.toNat_ofNat]
  · rw [memRead_memWrite hram, apply_ite BitVec.toNat, BitVec.toNat_ofNat]
  · rw [romRead_romWrite hrom, apply_ite BitVec.toNat, BitVec.toNat_ofNat]

/-- A load of the cell just stored to gives the register stored, under any two names of the cell. -/
theorem readReg_loadInto_storeFrom {s : State} (h : Memory.wf 32 s.ram = true) (src d : Nat) {cell cell' : Nat}
    (hc : cell' % 32 = cell % 32) :
    readReg (loadInto (storeFrom s src cell) d (memRead (storeFrom s src cell) cell').toNat) d = readReg s src := by
  rw [readReg_loadInto, if_pos rfl, memRead_storeFrom h, if_pos hc, BitVec.ofNat_toNat, BitVec.setWidth_eq]

/-- Settles O35: two addresses of one cell name that cell, and a store leaves the pointer register as it was. -/
theorem storeThenLoadGivesTheValue : Obligations.StoreThenLoadGivesTheValue := by
  refine fun s h => ⟨fun src d addr addr' ha => ⟨_, _, rfl, rfl, ?_⟩, fun p src d => ⟨_, _, rfl, rfl, ?_⟩⟩
  · have same : directCell addr' = directCell addr := ha.symm
    exact readReg_loadInto_storeFrom h src d (congrArg (· % 32) same)
  · have same : pointerCell (storeFrom s src (pointerCell s p)) p = pointerCell s p := rfl
    exact readReg_loadInto_storeFrom h src d (congrArg (· % 32) same)

/-! ### ROM -/

/-- The state with the ROM replaced. -/
def withRom (r : Rom) (s : State) : State := { s with rom := r }

theorem apply_rom (e : Effect) (s : State) : (e.apply s).rom = s.rom := by
  rw [apply_frame]
  rfl

/-- An instruction neither reads ROM nor writes it (rule R60). -/
theorem apply_effect_withRom (i : Instr) (r : Rom) (s : State) :
    (effect i (withRom r s)).apply (withRom r s) = withRom r ((effect i s).apply s) := by
  change (effect i (onto (withRom r s) s)).apply (onto (withRom r s) s) = _
  rw [effect_onto, apply_onto, apply_frame (effect i s) s]
  rfl

/-- A cycle reads ROM at the pc only: the word there decides the instruction, and nothing after the fetch reads ROM. -/
theorem afterCycle_withRom (cfg : Config) {r : Rom} {s : State}
    (h : romRead (withRom r s) s.pc.toNat = romRead s s.pc.toNat) :
    afterCycle cfg (withRom r s) = withRom r (afterCycle cfg s) := by
  have hf : fetched cfg (withRom r s) = fetched cfg s := congrArg (decodeWith cfg.twoNibbleLayout) h
  rw [afterCycle, hf, apply_effect_withRom, retire, touchedBy_congr (s := s) (s' := withRom r s) rfl rfl rfl rfl]
  rfl

theorem perform_cycle_withRom (cfg : Config) {r : Rom} {s : State}
    (h : romRead (withRom r s) s.pc.toNat = romRead s s.pc.toNat) :
    perform cfg .cycle (withRom r s) = mapNext (withRom r) (perform cfg .cycle s) := by
  rw [perform_cycle, perform_cycle, afterCycle_withRom cfg h, mapNext_ite]
  rfl

theorem leads_rom {cfg : Config} {e : HostEvent} {s t : State} (h : Leads cfg s e t)
    (hl : ∀ rom ram, e ≠ .load rom ram) (hf : e ≠ .fullReset) : t.rom = s.rom := by
  cases h with
  | load rom ram _ => exact absurd rfl (hl rom ram)
  | fullReset => exact absurd rfl hf
  | cycle _ => exact apply_rom _ s
  | programReset | requestStep | requestManualMode | requestAutomaticMode => rfl

/-- Settles O27: instructions commute with replacing ROM, and so does a cycle that fetches the same word. -/
theorem romIsReadByTheFetchOnly : Obligations.RomIsReadByTheFetchOnly :=
  ⟨fun i s r => ⟨_, exec_eq i s, apply_rom _ s,
      (exec_eq i (withRom r s)).trans (congrArg Host.Outcome.next (apply_effect_withRom i r s))⟩,
    fun cfg _ _ h => perform_cycle_withRom cfg h,
    fun _ _ _ _ hl hf h => leads_rom (leads_of_perform h) hl hf,
    fun s n => (romRead_mod s n).symm⟩

/-! ### RAM -/

/-- The state with the RAM replaced. -/
def withRam (m : Ram) (s : State) : State := { s with ram := m }

/-- Only STM and STP write RAM (rule R61). -/
theorem apply_ram_of_not_store {i : Instr} (hm : i.opcode ≠ .stm) (hp : i.opcode ≠ .stp) (s : State) :
    ((effect i s).apply s).ram = s.ram := by
  cases i with
  | stm _ _ => exact absurd rfl hm
  | stp _ _ => exact absurd rfl hp
  | _ => rfl

/-- The contents of RAM have no influence but on LDM and LDP (rule R61). -/
theorem effect_withRam_of_not_load {i : Instr} (hm : i.opcode ≠ .ldm) (hp : i.opcode ≠ .ldp) (m : Ram) (s : State) :
    effect i (withRam m s) = effect i s := by
  cases i with
  | ldm _ _ => exact absurd rfl hm
  | ldp _ _ => exact absurd rfl hp
  | _ => rfl

/-- An effect changes no field but RAM in a way that depends on RAM. -/
theorem withRam_apply_withRam (e : Effect) (m blank : Ram) (s : State) :
    withRam blank (e.apply (withRam m s)) = withRam blank (e.apply s) := by
  cases e <;> rfl

theorem sameRam_of_ram_eq {s t : State} (h : t.ram = s.ram) : SameRam s t := fun n => by
  rw [memRead, memRead, h]

theorem memRead_of_leads_reset {cfg : Config} {e : HostEvent} {s t : State} (h : Leads cfg s e t)
    (he : e = .programReset ∨ e = .fullReset) (n : Nat) : memRead t n = 0 := by
  cases h with
  | programReset | fullReset => exact memory_read_nil _
  | _ => rcases he with he | he <;> cases he

theorem leads_ram {cfg : Config} {e : HostEvent} {s t : State} (h : Leads cfg s e t)
    (hl : ∀ rom ram, e ≠ .load rom ram) (hc : e ≠ .cycle) (hp : e ≠ .programReset) (hf : e ≠ .fullReset) :
    t.ram = s.ram := by
  cases h with
  | load rom ram _ => exact absurd rfl (hl rom ram)
  | cycle _ => exact absurd rfl hc
  | programReset => exact absurd rfl hp
  | fullReset => exact absurd rfl hf
  | requestStep | requestManualMode | requestAutomaticMode => rfl

/-- Settles O28: which effects write RAM, which depend on it, and which events write it. -/
theorem ramReadersAndWriters : Obligations.RamReadersAndWriters := by
  refine ⟨fun i s => ⟨_, exec_eq i s, fun hm hp => sameRam_of_ram_eq (apply_ram_of_not_store hm hp s)⟩,
    fun i s m hm hp => ?_,
    fun _ _ _ _ hl h => ⟨memRead_of_leads_reset (leads_of_perform h),
      fun hc hp hf => sameRam_of_ram_eq (leads_ram (leads_of_perform h) hl hc hp hf)⟩,
    fun s n => (memRead_mod s n).symm⟩
  change mapNext (withRam []) (exec i (withRam m s)) = mapNext (withRam []) (exec i s)
  rw [exec_eq, exec_eq, effect_withRam_of_not_load hm hp]
  exact congrArg Host.Outcome.next (withRam_apply_withRam _ m [] s)

end Sys2Proof.Proofs
end

section
/-! The encoding (O1 to O7): fields as slices of a word, what decoding gives opcode by opcode, the two round trips, and
the bits that influence nothing. -/

namespace Sys2Proof.Proofs

open Sys2Proof.Machine Sys2Proof.Claims

/-! ### Slices and fields -/

theorem f11_8_eq (w : Word) : f11_8 w = w.toNat / 256 % 16 := rfl

theorem f7_4_eq (w : Word) : f7_4 w = w.toNat / 16 % 16 := rfl

theorem f3_0_eq (w : Word) : f3_0 w = w.toNat % 16 := congrArg (· % 16) (Nat.div_one _)

theorem imm8_eq (w : Word) : imm8 w = w.toNat % 256 := congrArg (· % 256) (Nat.div_one _)

theorem addr12_eq (w : Word) : addr12 w = w.toNat % 4096 := congrArg (· % 4096) (Nat.div_one _)

theorem slice_opcode (w : Word) : slice w 15 12 = (opcodeOf w).number := by
  rw [opcodeOf_number]
  exact Nat.mod_eq_of_lt (Nat.div_lt_of_lt_mul w.isLt)

theorem imm8_eq_nibbles (w : Word) : imm8 w = f7_4 w * 2 ^ 4 + f3_0 w := by
  rw [imm8_eq, f7_4_eq, f3_0_eq]
  omega

theorem addr12_eq_nibbles (w : Word) : addr12 w = f11_8 w * 2 ^ 8 + f7_4 w * 2 ^ 4 + f3_0 w := by
  rw [addr12_eq, f11_8_eq, f7_4_eq, f3_0_eq]
  omega

/-- A word is its opcode and its three low nibbles. -/
theorem toNat_eq_nibbles (w : Word) :
    w.toNat = slice w 15 12 * 4096 + (f11_8 w * 2 ^ 8 + f7_4 w * 2 ^ 4 + f3_0 w) := by
  rw [← addr12_eq_nibbles, addr12_eq, slice_opcode, opcodeOf_number]
  omega

theorem slice_and (w m : Word) (hi lo : Nat) : slice (w &&& m) hi lo = slice w hi lo &&& slice m hi lo := by
  rw [slice, BitVec.toNat_and, Nat.and_div_two_pow, Nat.and_mod_two_pow]
  rfl

theorem slice_xor (w m : Word) (hi lo : Nat) : slice (w ^^^ m) hi lo = slice w hi lo ^^^ slice m hi lo := by
  rw [slice, BitVec.toNat_xor, Nat.xor_div_two_pow, Nat.xor_mod_two_pow]
  rfl

/-- A mask keeps a slice where it is all ones. -/
theorem slice_and_of_ones {m : Word} {hi lo : Nat} (h : slice m hi lo = 2 ^ (hi - lo + 1) - 1) (w : Word) :
    slice (w &&& m) hi lo = slice w hi lo := by
  rw [slice_and, h, Nat.and_two_pow_sub_one_eq_mod, Nat.mod_eq_of_lt (slice_lt w hi lo)]

/-- A mask clears a slice where it is all zeros. -/
theorem slice_and_of_zeros {m : Word} {hi lo : Nat} (h : slice m hi lo = 0) (w : Word) :
    slice (w &&& m) hi lo = 0 := by
  rw [slice_and, h, Nat.and_zero]

/-- Flipping bits of `u` alone keeps every slice that has none of them. -/
theorem slice_xor_of_disjoint {m u : Word} {hi lo : Nat} (hm : m &&& ~~~u = 0)
    (h : slice (~~~u) hi lo = 2 ^ (hi - lo + 1) - 1) (w : Word) : slice (w ^^^ m) hi lo = slice w hi lo := by
  have clear : slice m hi lo = 0 := by
    rw [← slice_and_of_ones h m, hm, slice]
    simp
  rw [slice_xor, clear, Nat.xor_zero]

/-! ### Decoding -/

theorem opcodeOf_of_number {w : Word} {op : Opcode} (h : w.toNat / 4096 = op.number) : opcodeOf w = op :=
  opcode_number_inj ((opcodeOf_number w).trans h)

theorem decodeWith_opcode (l : TwoNibbleLayout) (w : Word) : (decodeWith l w).opcode = opcodeOf w := by
  rw [decodeWith]
  cases opcodeOf w <;> rfl

theorem secondNibble_lt (l : TwoNibbleLayout) (w : Word) : secondNibble l w < 16 := by
  cases l with
  | packedHigh => exact slice_lt w 7 4
  | low => exact slice_lt w 3 0

theorem decodeWith_wf (l : TwoNibbleLayout) (w : Word) : (decodeWith l w).wf = true := by
  have h11 : fitsNibble (f11_8 w) = true := decide_eq_true (slice_lt w 11 8)
  have h7 : fitsNibble (f7_4 w) = true := decide_eq_true (slice_lt w 7 4)
  have h3 : fitsNibble (f3_0 w) = true := decide_eq_true (slice_lt w 3 0)
  have h2 : fitsNibble (secondNibble l w) = true := decide_eq_true (secondNibble_lt l w)
  have h8 : fitsImm8 (imm8 w) = true := decide_eq_true (slice_lt w 7 0)
  have h12 : fitsAddr12 (addr12 w) = true := decide_eq_true (slice_lt w 11 0)
  rw [decodeWith]
  cases opcodeOf w <;> simp only [Instr.wf, h11, h7, h3, h2, h8, h12, Bool.and_self]

/-- Settles O4: every slice fits its field, and the opcode is read from the top four bits. -/
theorem everyWordIsAnInstruction : Obligations.EveryWordIsAnInstruction := fun l w =>
  ⟨decodeWith_wf l w, by rw [decodeWith_opcode, opcodeOf_number]⟩

/-- Settles O2, opcode by opcode, from the fields as numbers. -/
theorem formatsOfTheFixedLayouts : Obligations.FormatsOfTheFixedLayouts := by
  intro l w
  rw [← f11_8_eq, ← f7_4_eq, ← f3_0_eq, ← imm8_eq, ← addr12_eq]
  refine ⟨fun h => ?_, fun h => ?_, fun h => ?_, fun h => ?_, fun h => ?_, fun h => ?_, fun h => ?_, fun h => ?_,
    fun h => ?_, fun h => ?_, fun h => ?_, fun h => ?_⟩
  · rw [decodeWith, opcodeOf_of_number (op := .halt) h]
  · rw [decodeWith, opcodeOf_of_number (op := .add) h]
  · rw [decodeWith, opcodeOf_of_number (op := .sub) h]
  · rw [decodeWith, opcodeOf_of_number (op := .and) h]
  · rw [decodeWith, opcodeOf_of_number (op := .nor) h]
  · rw [decodeWith, opcodeOf_of_number (op := .xor) h]
  · rw [decodeWith, opcodeOf_of_number (op := .cmp) h]
  · rw [decodeWith, opcodeOf_of_number (op := .ldi) h]
  · rw [decodeWith, opcodeOf_of_number (op := .ldm) h]
  · rw [decodeWith, opcodeOf_of_number (op := .stm) h]
  · rw [decodeWith, opcodeOf_of_number (op := .brc) h]
  · rw [decodeWith, opcodeOf_of_number (op := .jmp) h]

/-- Settles O3: the second operand is `secondNibble` of the layout, which is the one field or the other. -/
theorem formatOfTheTwoNibbleForms : Obligations.FormatOfTheTwoNibbleForms := by
  refine ⟨fun l w h => ?_, fun w => ?_, fun _ => rfl⟩
  · rw [decodeWith, opcodeOf_of_number (op := .rsh) h]
    rfl
  · rw [← f11_8_eq, ← f7_4_eq, ← f3_0_eq]
    refine ⟨fun h => ?_, fun h => ?_, fun h => ?_⟩
    · rw [decodeWith, decodeWith, opcodeOf_of_number (op := .ldp) h]
      exact ⟨rfl, rfl⟩
    · rw [decodeWith, decodeWith, opcodeOf_of_number (op := .stp) h]
      exact ⟨rfl, rfl⟩
    · rw [decodeWith, decodeWith, opcodeOf_of_number (op := .brp) h]
      exact ⟨rfl, rfl⟩

/-- Settles O1, by evaluating the decoder. -/
theorem sampleWordsDecode : Obligations.SampleWordsDecode := by
  unfold Obligations.SampleWordsDecode
  decide

/-! ### Decoding an encoding -/

/-- The fields of a word put together from an opcode and three nibbles. -/
theorem fields_of_nibbles {w : Word} {n d a b : Nat} (h : w.toNat = n * 4096 + (d * 2 ^ 8 + a * 2 ^ 4 + b))
    (hd : d < 16) (ha : a < 16) (hb : b < 16) : f11_8 w = d ∧ f7_4 w = a ∧ f3_0 w = b := by
  rw [f11_8_eq, f7_4_eq, f3_0_eq]
  omega

/-- The fields of a word put together from an opcode, a nibble and a byte. -/
theorem fields_of_nibble_byte {w : Word} {n d v : Nat} (h : w.toNat = n * 4096 + (d * 2 ^ 8 + v))
    (hd : d < 16) (hv : v < 256) : f11_8 w = d ∧ imm8 w = v := by
  rw [f11_8_eq, imm8_eq]
  omega

/-- The fields of a word put together from an opcode and two nibbles, the second where the layout has it. -/
theorem fields_of_two_nibbles {l : TwoNibbleLayout} {w : Word} {n d a : Nat}
    (h : w.toNat = n * 4096 + (d * 2 ^ 8 + placeSecond l a)) (hd : d < 16) (ha : a < 16) :
    f11_8 w = d ∧ secondNibble l w = a := by
  cases l with
  | packedHigh =>
    rw [placeSecond] at h
    rw [secondNibble, f11_8_eq, f7_4_eq]
    omega
  | low =>
    rw [placeSecond] at h
    rw [secondNibble, f11_8_eq, f3_0_eq]
    omega

theorem fitsNibble_iff {n : Nat} : fitsNibble n = true ↔ n < 16 := decide_eq_true_iff

theorem fitsImm8_iff {n : Nat} : fitsImm8 n = true ↔ n < 256 := decide_eq_true_iff

theorem fitsAddr12_iff {n : Nat} : fitsAddr12 n = true ↔ n < 4096 := decide_eq_true_iff

/-- Settles O5: the word has the instruction's opcode, and each format's fields are the operands. -/
theorem decodeOfEncodeIsTheInstruction : Obligations.DecodeOfEncodeIsTheInstruction := by
  intro l i h
  have hw := encodeWith_toNat l h
  rw [decodeWith, Laws.EncodedOpcode.of_parts i h l]
  cases i <;> simp only [Instr.wf, fitsNibble_iff, fitsImm8_iff, fitsAddr12_iff, Bool.and_eq_true] at h
  case halt => rfl
  case add d a b | sub d a b | and d a b | nor d a b | xor d a b =>
    obtain ⟨⟨hd, ha⟩, hb⟩ := h
    obtain ⟨h11, h7, h3⟩ := fields_of_nibbles hw hd ha hb
    simp only [Instr.opcode, h11, h7, h3]
  case rsh d a =>
    obtain ⟨h11, h7⟩ := fields_of_two_nibbles (l := .packedHigh) hw h.1 h.2
    rw [secondNibble] at h7
    simp only [Instr.opcode, h11, h7]
  case cmp a b =>
    obtain ⟨h7, h3⟩ : f7_4 (encodeWith l (.cmp a b)) = a ∧ f3_0 (encodeWith l (.cmp a b)) = b := by
      rw [f7_4_eq, f3_0_eq, hw, operandBits]
      omega
    simp only [Instr.opcode, h7, h3]
  case ldi d v | ldm d v | stm d v | brc d v =>
    obtain ⟨h11, h8⟩ := fields_of_nibble_byte hw h.1 h.2
    simp only [Instr.opcode, h11, h8]
  case ldp d a | stp d a | brp d a =>
    obtain ⟨h11, h2⟩ := fields_of_two_nibbles hw h.1 h.2
    simp only [Instr.opcode, h11, h2]
  case jmp v =>
    have h12 : addr12 (encodeWith l (.jmp v)) = v := by
      rw [addr12_eq, hw, operandBits]
      omega
    simp only [Instr.opcode, h12]

/-! ### Encoding a decoding -/

/-- The operand bits written back are the three low nibbles of the word with its unused bits cleared. -/
theorem operandBits_decodeWith (l : TwoNibbleLayout) {w u : Word} (hu : u = w &&& ~~~unusedBits l (opcodeOf w)) :
    operandBits l (decodeWith l w) = f11_8 u * 2 ^ 8 + f7_4 u * 2 ^ 4 + f3_0 u := by
  have kept : ∀ hi lo, slice (~~~unusedBits l (opcodeOf w)) hi lo = 2 ^ (hi - lo + 1) - 1 →
      slice u hi lo = slice w hi lo := fun hi lo h => hu ▸ slice_and_of_ones h w
  have cleared : ∀ hi lo, slice (~~~unusedBits l (opcodeOf w)) hi lo = 0 → slice u hi lo = 0 :=
    fun hi lo h => hu ▸ slice_and_of_zeros h w
  rw [decodeWith]
  generalize opcodeOf w = op at kept cleared ⊢
  simp only [f11_8, f7_4, f3_0]
  cases op <;> dsimp only [unusedBits] at kept cleared
  case halt => rw [cleared 11 8 rfl, cleared 7 4 rfl, cleared 3 0 rfl]; rfl
  case add | sub | and | nor | xor => rw [kept 11 8 rfl, kept 7 4 rfl, kept 3 0 rfl]; rfl
  case rsh => rw [kept 11 8 rfl, kept 7 4 rfl, cleared 3 0 rfl, Nat.add_zero]; rfl
  case cmp => rw [cleared 11 8 rfl, kept 7 4 rfl, kept 3 0 rfl, Nat.zero_mul, Nat.zero_add]; rfl
  case ldi | ldm | stm | brc =>
    rw [kept 11 8 rfl, kept 7 4 rfl, kept 3 0 rfl, Nat.add_assoc]
    exact congrArg (_ + ·) (imm8_eq_nibbles w)
  case ldp | stp | brp =>
    cases l with
    | packedHigh => rw [kept 11 8 rfl, kept 7 4 rfl, cleared 3 0 rfl, Nat.add_zero]; rfl
    | low => rw [kept 11 8 rfl, cleared 7 4 rfl, kept 3 0 rfl, Nat.zero_mul, Nat.add_zero]; rfl
  case jmp =>
    rw [kept 11 8 rfl, kept 7 4 rfl, kept 3 0 rfl]
    exact addr12_eq_nibbles w

/-- No opcode has an unused bit in the opcode's own field. -/
theorem unusedBits_opcode_field (l : TwoNibbleLayout) (op : Opcode) : slice (~~~unusedBits l op) 15 12 = 15 := by
  cases op <;> cases l <;> rfl

/-- Settles O6: the opcode is kept, and the operand bits are those of the word with its unused bits cleared. -/
theorem encodeOfDecodeClearsUnusedBits : Obligations.EncodeOfDecodeClearsUnusedBits := by
  intro l w
  refine BitVec.eq_of_toNat_eq ?_
  rw [encodeWith_toNat l (decodeWith_wf l w), decodeWith_opcode, operandBits_decodeWith l rfl,
    toNat_eq_nibbles (_ &&& _), slice_and_of_ones (unusedBits_opcode_field l _), slice_opcode]

/-! ### Ignored bits -/

/-- The instruction with every register field reduced to the register it names (rule R92); `cond` names one of sixteen
flags and stays. -/
def withRegisterIndices : Instr → Instr
  | .halt => .halt
  | .add d a b => .add (d % 8) (a % 8) (b % 8)
  | .sub d a b => .sub (d % 8) (a % 8) (b % 8)
  | .and d a b => .and (d % 8) (a % 8) (b % 8)
  | .nor d a b => .nor (d % 8) (a % 8) (b % 8)
  | .xor d a b => .xor (d % 8) (a % 8) (b % 8)
  | .rsh d a => .rsh (d % 8) (a % 8)
  | .cmp a b => .cmp (a % 8) (b % 8)
  | .ldi d v => .ldi (d % 8) v
  | .ldm d v => .ldm (d % 8) v
  | .stm r v => .stm (r % 8) v
  | .ldp d p => .ldp (d % 8) (p % 8)
  | .stp p r => .stp (p % 8) (r % 8)
  | .brc c v => .brc c v
  | .brp c p => .brp c (p % 8)
  | .jmp v => .jmp v

theorem writeReg_mod (s : State) (d v : Nat) : writeReg s (d % 8) v = writeReg s d v := by
  simp only [writeReg, Nat.mod_mod]

theorem aluWriteback_mod (s : State) (d r : Nat) (fl : List Bool) :
    aluWriteback s (d % 8) r fl = aluWriteback s d r fl := by
  rw [aluWriteback, writeReg_mod, aluWriteback]

theorem loadInto_mod (s : State) (d v : Nat) : loadInto s (d % 8) v = loadInto s d v := by
  rw [loadInto, writeReg_mod, loadInto]

theorem pointerCell_mod (s : State) (p : Nat) : pointerCell s (p % 8) = pointerCell s p := by
  rw [pointerCell, regOperand_mod, pointerCell]

theorem pointerTarget_mod (s : State) (p : Nat) : pointerTarget s (p % 8) = pointerTarget s p := by
  rw [pointerTarget, regOperand_mod, pointerTarget]

/-- Instructions see of a register field only the register it names. -/
theorem exec_withRegisterIndices (i : Instr) (s : State) : exec (withRegisterIndices i) s = exec i s := by
  rw [exec_eq, exec_eq]
  cases i with
  | halt | brc _ _ | jmp _ => rfl
  | add _ _ _ | sub _ _ _ =>
    simp only [withRegisterIndices, effect, Effect.arithmetic, Effect.apply, aluWriteback_mod, regOperand_mod]
  | and _ _ _ | nor _ _ _ | xor _ _ _ | rsh _ _ =>
    simp only [withRegisterIndices, effect, Effect.bitwise, Effect.apply, aluWriteback_mod, regOperand_mod]
  | cmp _ _ | stm _ _ => simp only [withRegisterIndices, effect, regOperand_mod]
  | ldi _ _ | ldm _ _ => simp only [withRegisterIndices, effect, Effect.apply, loadInto_mod]
  | ldp _ _ => simp only [withRegisterIndices, effect, Effect.apply, loadInto_mod, pointerCell_mod]
  | stp _ _ => simp only [withRegisterIndices, effect, regOperand_mod, pointerCell_mod]
  | brp _ _ => simp only [withRegisterIndices, effect, pointerTarget_mod]

/-! The register a field names is the field's three low bits (rule R92). -/

theorem f11_8_mod (w : Word) : f11_8 w % 8 = slice w 10 8 := Nat.mod_mod_of_dvd _ (by decide)

theorem f7_4_mod (w : Word) : f7_4 w % 8 = slice w 6 4 := Nat.mod_mod_of_dvd _ (by decide)

theorem f3_0_mod (w : Word) : f3_0 w % 8 = slice w 2 0 := Nat.mod_mod_of_dvd _ (by decide)

/-- The bits of a word that influence nothing (rule R102). -/
def ignoredBits (l : TwoNibbleLayout) (op : Opcode) : Word := unusedBits l op ||| fieldTopBits l op

/-- No opcode ignores a bit of the opcode's own field. -/
theorem ignoredBits_opcode_field (l : TwoNibbleLayout) (op : Opcode) : slice (~~~ignoredBits l op) 15 12 = 15 := by
  cases op <;> cases l <;> rfl

section
variable {l : TwoNibbleLayout} {w m : Word} (hm : m &&& ~~~ignoredBits l (opcodeOf w) = 0)
include hm

theorem opcodeOf_flip : opcodeOf (w ^^^ m) = opcodeOf w := by
  refine opcode_number_inj ?_
  rw [← slice_opcode, ← slice_opcode, slice_xor_of_disjoint hm (ignoredBits_opcode_field l _)]

/-- Flipping ignored bits keeps the registers, the flag and the number that the operands name. -/
theorem withRegisterIndices_flip :
    withRegisterIndices (decodeWith l (w ^^^ m)) = withRegisterIndices (decodeWith l w) := by
  have kept : ∀ hi lo, slice (~~~ignoredBits l (opcodeOf w)) hi lo = 2 ^ (hi - lo + 1) - 1 →
      slice (w ^^^ m) hi lo = slice w hi lo := fun hi lo h => slice_xor_of_disjoint hm h w
  rw [decodeWith, decodeWith, opcodeOf_flip hm]
  generalize opcodeOf w = op at kept ⊢
  cases op <;> dsimp only [ignoredBits, unusedBits, fieldTopBits] at kept
  case halt => rfl
  case add | sub | and | nor | xor =>
    simp only [withRegisterIndices, f11_8_mod, f7_4_mod, f3_0_mod, kept 10 8 rfl, kept 6 4 rfl, kept 2 0 rfl]
  case rsh => simp only [withRegisterIndices, f11_8_mod, f7_4_mod, kept 10 8 rfl, kept 6 4 rfl]
  case cmp => simp only [withRegisterIndices, f7_4_mod, f3_0_mod, kept 6 4 rfl, kept 2 0 rfl]
  case ldi | ldm | stm => simp only [withRegisterIndices, f11_8_mod, imm8, kept 10 8 rfl, kept 7 0 rfl]
  case ldp | stp =>
    cases l with
    | packedHigh => simp only [withRegisterIndices, secondNibble, f11_8_mod, f7_4_mod, kept 10 8 rfl, kept 6 4 rfl]
    | low => simp only [withRegisterIndices, secondNibble, f11_8_mod, f3_0_mod, kept 10 8 rfl, kept 2 0 rfl]
  case brc => simp only [withRegisterIndices, f11_8, imm8, kept 11 8 rfl, kept 7 0 rfl]
  case brp =>
    cases l with
    | packedHigh => simp only [withRegisterIndices, secondNibble, f11_8, f7_4_mod, kept 11 8 rfl, kept 6 4 rfl]
    | low => simp only [withRegisterIndices, secondNibble, f11_8, f3_0_mod, kept 11 8 rfl, kept 2 0 rfl]
  case jmp => simp only [withRegisterIndices, addr12, kept 11 0 rfl]

end

/-- Settles O7: the flipped word is the same instruction up to the names of its registers. -/
theorem ignoredBitsHaveNoEffect : Obligations.IgnoredBitsHaveNoEffect := by
  intro l w m s hm
  rw [decodeWith_opcode] at hm
  refine ⟨?_, ?_⟩
  · rw [decodeWith_opcode, decodeWith_opcode, opcodeOf_flip hm]
  · rw [← exec_withRegisterIndices, withRegisterIndices_flip hm, exec_withRegisterIndices]

end Sys2Proof.Proofs
end

section
/-! The cycle and HALT: which instruction a step runs, what a cycle adds around it, and the mode (O8, O37, O38, O40,
O43). -/

namespace Sys2Proof.Proofs

open Sys2Proof.Machine Sys2Proof.Claims

/-! ### The bookkeeping -/

theorem afterCycle_icount (cfg : Config) (s : State) :
    (afterCycle cfg s).icount = keepCount cfg (s.icount + 1) := by
  rw [afterCycle_frame]

theorem afterCycle_trace (cfg : Config) (s : State) :
    (afterCycle cfg s).trace = pushEntry s.trace (.executed (fetched cfg s)) := by
  rw [afterCycle_frame]

/-- Settles O40: the unbounded counter keeps the count whole, and the entry pushed names the instruction fetched. -/
theorem cycleCountsAndLogsOnce : Obligations.CycleCountsAndLogsOnce := by
  intro cfg s hm hc
  refine ⟨_, cycle_eq_of_run cfg hm, ?_, ?_, fun k hk => ?_⟩
  · rw [afterCycle_icount, keepCount, hc]
  · simp only [afterCycle_trace]
    exact pushEntry_get s.trace _ 6 (by decide)
  · simp only [afterCycle_trace]
    rw [pushEntry_get s.trace _ k (by omega), dif_pos (by omega)]

/-! ### The mode -/

/-- Settles O8: HALT's effect is `stop`, and the effect of every other instruction leaves the mode. -/
theorem haltStopsAndAdvances : Obligations.HaltStopsAndAdvances := by
  refine ⟨fun s => ⟨_, exec_eq .halt s, rfl, apply_pc .stop s, readReg_apply .stop s, readFlag_apply .stop s,
    fun _ => rfl, rfl, rfl, rfl, rfl, rfl, rfl, rfl, rfl⟩, fun i s hi => ⟨_, exec_eq i s, ?_⟩⟩
  rw [apply_frame]
  exact (effect_newMode i s s.mode).trans (if_neg hi)

/-- The mode a cycle starts in decides the mode after it and nothing else. -/
theorem afterCycle_setMode (cfg : Config) (s : State) (m : Mode) :
    afterCycle cfg (setMode s m) = setMode (afterCycle cfg s) (if fetched cfg s = .halt then .setup else m) := by
  refine (afterCycle_onto cfg (o := setMode s m) (s := s) rfl rfl).trans ?_
  rw [effect_newMode, afterCycle_frame cfg s]
  rfl

/-- No cycle leaves Setup. -/
theorem afterCycle_mode_of_setup (cfg : Config) {s : State} (h : s.mode = .setup) :
    (afterCycle cfg s).mode = .setup := by
  rw [afterCycle_frame, effect_newMode, h]
  exact ite_self _

/-- Settles O43: the precondition refuses by default; under `execute` the two cycles differ in the mode only. -/
theorem cycleInSetup : Obligations.CycleInSetup := by
  refine ⟨fun s hm => (perform_cycle _ s).trans (if_pos ⟨hm, rfl⟩), fun cfg s hx hm => ?_⟩
  rw [cycle_of_execute hx, cycle_of_execute hx, runCycle_eq, runCycle_eq]
  refine congrArg Host.Outcome.next ?_
  change afterCycle cfg s = setMode (afterCycle cfg (setMode s .automatic)) .setup
  rw [afterCycle_setMode, ← afterCycle_mode_of_setup cfg hm]
  rfl

/-! ### Steps -/

theorem step_of_cycle {s : State} (h : nextEvent s = .cycle) :
    step s = cycle Config.default { s with pending := s.pending.tail } := by
  rw [step, stepWith, h, perform]

/-- Settles O37: a cycle is the instruction fetched and the bookkeeping around it, which the events to come do not
reach. -/
theorem stepRunsTheDecodedInstruction : Obligations.StepRunsTheDecodedInstruction := by
  rintro s _ hm hn rfl
  have htouched := touchedBy_congr (i := decode (romRead s s.pc.toNat)) (s := s)
    (s' := { s with pending := s.pending.tail }) rfl rfl rfl rfl
  rw [step_of_cycle hn, cycle_eq_of_run _ (s := { s with pending := s.pending.tail }) hm, exec_eq, ← htouched]
  rfl

theorem withFetchWord_mode (s : State) (w : Nat) : (s.withFetchWord 16 w).mode ≠ .setup := by
  dsimp only [State.withFetchWord, placeWord]
  split <;> decide

/-- The word placed is the one at the pc. -/
theorem romRead_withFetchWord {s : State} (h : Memory.wf 64 s.rom = true) (w : Nat) :
    romRead (s.withFetchWord 16 w) (s.withFetchWord 16 w).pc.toNat = BitVec.ofNat 16 w :=
  calc romRead (s.withFetchWord 16 w) (s.withFetchWord 16 w).pc.toNat
    _ = romRead (romWrite s s.pc.toNat (w % 2 ^ 16)) s.pc.toNat := rfl
    _ = BitVec.ofNat 16 (w % 2 ^ 16) := by rw [romRead_romWrite h, if_pos rfl]
    _ = BitVec.ofNat 16 w := BitVec.eq_of_toNat_eq (Nat.mod_mod w (2 ^ 16))

/-- Settles O38: a placed word leaves nothing pending and a run mode, so the step runs what the word decodes to. -/
theorem placedWordRunsNext : Obligations.PlacedWordRunsNext := by
  intro s w _ hrom
  refine ⟨_, exec_eq _ _, ?_⟩
  have hstep := stepRunsTheDecodedInstruction (s.withFetchWord 16 w) _ (withFetchWord_mode s w) rfl
    (congrArg decode (romRead_withFetchWord hrom w))
  rw [exec_eq] at hstep
  exact hstep

end Sys2Proof.Proofs
end

section
/-! The ALU (O9 to O14, O32): signed overflow as the carries see it, and what the two kinds of ALU effect make of a
result of eight bits. -/

namespace Sys2Proof.Proofs

open Sys2Proof.Machine Sys2Proof.Claims

/-! ### Signed values and overflow -/

theorem sext8_toNat (A : Byte) : sext8 A.toNat = A.toInt := by
  rw [sext8, BitVec.toInt_eq_toNat_cond]
  split <;> split <;> omega

/-- The sign bit of a byte weighs -128. -/
theorem sext8_eq_low_sub_sign {A : Nat} (hA : A < 256) : sext8 A = (A % 128 : Nat) - 128 * (A / 128 : Nat) := by
  rw [sext8]
  split <;> omega

theorem not_fitsSigned8_iff {z : Int} : (!fitsSigned8 z) = true ↔ z < -128 ∨ z > 127 := by
  rw [fitsSigned8, Bool.not_and, Bool.or_eq_true, ← decide_not, ← decide_not, decide_eq_true_iff, decide_eq_true_iff,
    not_le, not_le]

theorem addOverflow_iff (A B : Byte) :
    addOverflow A.toNat B.toNat = true ↔ A.toInt + B.toInt < -128 ∨ A.toInt + B.toInt > 127 := by
  rw [addOverflow, sext8_toNat, sext8_toNat, not_fitsSigned8_iff]

theorem subOverflow_iff (A B : Byte) :
    subOverflow A.toNat B.toNat = true ↔ A.toInt - B.toInt < -128 ∨ A.toInt - B.toInt > 127 := by
  rw [subOverflow, sext8_toNat, sext8_toNat, not_fitsSigned8_iff]

/-- The carry of the low seven bits. -/
theorem lowCarry_eq (A B : Nat) : (A % 128 + B % 128).testBit 7 = decide (A % 128 + B % 128 ≥ 128) := by
  rw [Nat.testBit_eq_decide_div_mod_eq, decide_eq_decide]
  omega

/-- The borrow of the low seven bits. -/
theorem lowBorrow_eq (A B : Nat) :
    (((A % 128 : Nat) - (B % 128 : Nat) : Int) % 256).toNat.testBit 7 = decide (A % 128 < B % 128) := by
  rw [Nat.testBit_eq_decide_div_mod_eq, decide_eq_decide]
  omega

/-- Rule R143 for ADD: with each byte as its low seven bits less its sign bit's weight, a sum fits just when both
carries are there or neither is. -/
theorem addOverflow_eq_carries {A B : Nat} (hA : A < 256) (hB : B < 256) :
    addOverflow A B = ((A % 128 + B % 128).testBit 7 ^^ addCarry A B) := by
  rw [Bool.eq_iff_iff, Bool.xor_iff_ne, lowCarry_eq, addCarry_eq hA hB, Ne, decide_eq_decide, addOverflow,
    not_fitsSigned8_iff, sext8_eq_low_sub_sign hA, sext8_eq_low_sub_sign hB]
  omega

/-- Rule R143 for SUB, with borrows (decision D5). -/
theorem subOverflow_eq_borrows {A B : Nat} (hA : A < 256) (hB : B < 256) :
    subOverflow A B =
      ((((A % 128 : Nat) - (B % 128 : Nat) : Int) % 256).toNat.testBit 7 ^^ subCarry A B) := by
  rw [Bool.eq_iff_iff, Bool.xor_iff_ne, lowBorrow_eq, subCarry_eq hA hB, Ne, decide_eq_decide, subOverflow,
    not_fitsSigned8_iff, sext8_eq_low_sub_sign hA, sext8_eq_low_sub_sign hB]
  omega

/-- Settles O32: the model's overflow is each of the two definitions. -/
theorem signedOverflowBothWays : Obligations.SignedOverflowBothWays := by
  intro A B
  have hadd := addOverflow_eq_carries A.isLt B.isLt
  have hsub := subOverflow_eq_borrows A.isLt B.isLt
  exact ⟨hadd, hsub, hadd ▸ addOverflow_iff A B, hsub ▸ subOverflow_iff A B⟩

/-! ### Results -/

theorem zeroFlag_iff {r : Nat} (h : r < 256) : zeroFlag r = true ↔ r = 0 := by
  rw [zeroFlag, Nat.mod_eq_of_lt h, beq_iff_eq]

theorem evenFlag_iff {r : Nat} : evenFlag r = true ↔ r % 2 = 0 := by
  rw [evenFlag_eq, decide_eq_true_iff]

theorem differenceResult_eq {A B : Nat} (hA : A < 256) (hB : B < 256) :
    differenceResult A B = if A < B then A + 256 - B else A - B := by
  rw [differenceResult]
  split <;> omega

/-! ### What an ALU effect does -/

theorem readFlag_apply_iff {e : Effect} {k : Nat} {b : Bool} {P : Prop} (hk : e.newFlag (k % 16) = some b)
    (hb : b = true ↔ P) (s : State) : readFlag (e.apply s) k = true ↔ P := by
  rw [readFlag_apply, hk, Option.getD_some, hb]

theorem readFlag_apply_iff_not {e : Effect} {k : Nat} {b : Bool} {P : Prop} (hk : e.newFlag (k % 16) = some (!b))
    (hb : b = true ↔ P) (s : State) : readFlag (e.apply s) k = true ↔ ¬P :=
  readFlag_apply_iff hk (by rw [Bool.not_eq_true', ← Bool.not_eq_true, hb]) s

theorem regWritten_alu (d : Nat) {r : Nat} (hr : r < 256) (fl : List Bool) (hl : fl.length = 8) (s : State) :
    RegWritten s ((Effect.alu d r fl hl).apply s) d r := by
  intro n
  rw [readReg_apply, Effect.newReg]
  dsimp only
  rw [apply_ite BitVec.toNat, BitVec.toNat_ofNat, Nat.mod_eq_of_lt hr]

/-- Flags 8 to 15 and every field but the registers, the low flags and the pc keep their values. -/
theorem alu_frame (d r : Nat) (fl : List Bool) (hl : fl.length = 8) (s : State) :
    SameHighFlags s ((Effect.alu d r fl hl).apply s) ∧ SameRam s ((Effect.alu d r fl hl).apply s) ∧
      PcAdvanced s ((Effect.alu d r fl hl).apply s) ∧ ((Effect.alu d r fl hl).apply s).mode = s.mode ∧
      Untouched s ((Effect.alu d r fl hl).apply s) := by
  refine ⟨fun k hk => ?_, fun _ => rfl, apply_pc _ s, rfl, rfl, rfl, rfl, rfl, rfl, rfl, rfl, rfl⟩
  rw [readFlag_apply, Effect.newFlag, List.getElem?_eq_none (hl.le.trans hk), Option.getD_none]

theorem arithmeticFlags_arithmetic (d : Nat) {r : Nat} (hr : r < 256) {carry overflow : Bool} {C V : Prop}
    (hc : carry = true ↔ C) (hv : overflow = true ↔ V) (s : State) :
    ArithmeticFlags ((Effect.arithmetic d r carry overflow).apply s) r C V :=
  ⟨readFlag_apply_iff rfl (zeroFlag_iff hr) s, readFlag_apply_iff_not rfl (zeroFlag_iff hr) s,
    readFlag_apply_iff rfl hc s, readFlag_apply_iff_not rfl hc s,
    readFlag_apply_iff rfl hv s, readFlag_apply_iff_not rfl hv s,
    readFlag_apply_iff rfl evenFlag_iff s, (readFlag_apply_iff_not rfl evenFlag_iff s).trans Nat.mod_two_not_eq_zero⟩

theorem bitwiseFlags_bitwise (d : Nat) {r : Nat} (hr : r < 256) (s : State) :
    BitwiseFlags ((Effect.bitwise d r).apply s) r :=
  ⟨readFlag_apply_iff rfl (zeroFlag_iff hr) s, readFlag_apply_iff_not rfl (zeroFlag_iff hr) s,
    readFlag_apply _ s 2, readFlag_apply _ s 3, readFlag_apply _ s 4, readFlag_apply _ s 5,
    readFlag_apply_iff rfl evenFlag_iff s, (readFlag_apply_iff_not rfl evenFlag_iff s).trans Nat.mod_two_not_eq_zero⟩

/-- The bitwise operations on numbers write the byte they compute on bytes. -/
theorem bitwiseEffect_bitwise (d : Nat) {r : Nat} {v : Byte} (h : r = v.toNat) (s : State) :
    BitwiseEffect s ((Effect.bitwise d r).apply s) d v.toNat := by
  subst h
  exact ⟨regWritten_alu d v.isLt _ _ s, bitwiseFlags_bitwise d v.isLt s, alu_frame d _ _ _ s⟩

/-! ### The instructions -/

/-- Settles O9: the carry is the comparison of the sum with 256. -/
theorem addResultFlagsAndFrame : Obligations.AddResultFlagsAndFrame := by
  intro d a b s
  have hr : sumResult (regOperand s a) (regOperand s b) < 256 := sumResult_lt _ _
  have hc : addCarry (regOperand s a) (regOperand s b) = true ↔ regOperand s a + regOperand s b ≥ 256 := by
    rw [addCarry_eq (regOperand_lt s a) (regOperand_lt s b), decide_eq_true_iff]
  exact ⟨_, exec_eq _ s, regWritten_alu d hr _ _ s,
    arithmeticFlags_arithmetic d hr hc (addOverflow_iff (readReg s a) (readReg s b)) s, alu_frame d _ _ _ s⟩

/-- Settles O10: the carry is a borrow, the comparison of the operands. -/
theorem subResultFlagsAndFrame : Obligations.SubResultFlagsAndFrame := by
  intro d a b s
  have hr : differenceResult (regOperand s a) (regOperand s b) < 256 := differenceResult_lt _ _
  have hc : subCarry (regOperand s a) (regOperand s b) = true ↔ regOperand s a < regOperand s b := by
    rw [subCarry_eq (regOperand_lt s a) (regOperand_lt s b), decide_eq_true_iff]
  refine ⟨_, exec_eq _ s, ?_⟩
  dsimp only
  rw [← differenceResult_eq (readReg s a).isLt (readReg s b).isLt]
  exact ⟨regWritten_alu d hr _ _ s,
    arithmeticFlags_arithmetic d hr hc (subOverflow_iff (readReg s a) (readReg s b)) s, alu_frame d _ _ _ s⟩

/-- Settles O11: the AND of two bytes as numbers is the number of their AND. -/
theorem andResultFlagsAndFrame : Obligations.AndResultFlagsAndFrame := fun d _ _ s =>
  ⟨_, exec_eq _ s, bitwiseEffect_bitwise d (BitVec.toNat_and _ _).symm s⟩

/-- Settles O12: `255 - (A OR B)` is the complement in eight bits. -/
theorem norResultFlagsAndFrame : Obligations.NorResultFlagsAndFrame := by
  intro d a b s
  have hnor : norResult (regOperand s a) (regOperand s b) = (~~~(readReg s a ||| readReg s b)).toNat := by
    rw [BitVec.toNat_not, BitVec.toNat_or]
    rfl
  exact ⟨_, exec_eq _ s, bitwiseEffect_bitwise d hnor s⟩

/-- Settles O13: the XOR of two bytes as numbers is the number of their XOR. -/
theorem xorResultFlagsAndFrame : Obligations.XorResultFlagsAndFrame := fun d _ _ s =>
  ⟨_, exec_eq _ s, bitwiseEffect_bitwise d (BitVec.toNat_xor _ _).symm s⟩

/-- Settles O14: halving a number shifts its bits by one, a zero entering. -/
theorem rshResultFlagsAndFrame : Obligations.RshResultFlagsAndFrame := fun d a s =>
  ⟨_, exec_eq _ s, bitwiseEffect_bitwise d (BitVec.toNat_ushiftRight (readReg s a) 1).symm s⟩

end Sys2Proof.Proofs
end

section
/-! CMP, and how it agrees with SUB (O15, O33). -/

namespace Sys2Proof.Proofs

open Sys2Proof.Machine Sys2Proof.Claims

/-! ### What the comparing effect does -/

/-- The registers, RAM, flags 0 to 7 and every other field but the high flags and the pc keep their values. -/
theorem compare_frame (A B : Nat) (s : State) :
    SameLowFlags s ((Effect.compare A B).apply s) ∧ SameRegs s ((Effect.compare A B).apply s) ∧
      SameRam s ((Effect.compare A B).apply s) ∧ PcAdvanced s ((Effect.compare A B).apply s) ∧
      ((Effect.compare A B).apply s).mode = s.mode ∧ Untouched s ((Effect.compare A B).apply s) := by
  refine ⟨fun k hk => readFlag_apply_of_not_written ?_ s, readReg_apply _ s, fun _ => rfl, apply_pc _ s, rfl,
    rfl, rfl, rfl, rfl, rfl, rfl, rfl, rfl⟩
  rw [Effect.newFlag, if_neg (not_le.mpr hk)]
  decide

/-- Settles O15: each flag of rule R171 reads as the comparison it stands for, and the sentinels as constants. -/
theorem cmpFlagsAndFrame : Obligations.CmpFlagsAndFrame := fun _ _ s =>
  ⟨_, exec_eq _ s,
    readFlag_apply_iff rfl decide_eq_true_iff s, readFlag_apply_iff rfl decide_eq_true_iff s,
    readFlag_apply_iff rfl decide_eq_true_iff s, readFlag_apply_iff rfl decide_eq_true_iff s,
    readFlag_apply_iff rfl decide_eq_true_iff s, readFlag_apply_iff rfl decide_eq_true_iff s,
    readFlag_apply _ s 14, readFlag_apply _ s 15, compare_frame _ _ s⟩

/-! ### CMP beside SUB -/

/-- A difference of two bytes, wrapped to eight bits, is 0 only for equal bytes. -/
theorem wrappedDifference_eq_zero_iff {A B : Nat} (hB : B < 256) :
    (if A < B then A + 256 - B else A - B) = 0 ↔ A = B := by
  split <;> omega

/-- Settles O33: the borrow is `A < B`, the zero flag `A = B`, and the order of the operands is total. -/
theorem compareAgreesWithSubtract : Obligations.CompareAgreesWithSubtract := by
  intro d a b s
  obtain ⟨t, hcmp, hgt, -, hlt, -, heq, -⟩ := cmpFlagsAndFrame a b s
  obtain ⟨u, hsub, -, ⟨hzero, -, hborrow, -⟩, -⟩ := subResultFlagsAndFrame d a b s
  have hzero_iff := hzero.trans (wrappedDifference_eq_zero_iff (readReg s b).isLt)
  refine ⟨t, u, hcmp, hsub, Bool.eq_iff_iff.mpr (hlt.trans hborrow.symm),
    Bool.eq_iff_iff.mpr (heq.trans hzero_iff.symm), ?_⟩
  simp only [← Bool.not_eq_true, hgt, hlt, heq]
  omega

end Sys2Proof.Proofs
end

section
/-! The loads and the stores (O16 to O20). -/

namespace Sys2Proof.Proofs

open Sys2Proof.Machine Sys2Proof.Claims

/-! ### What a loading effect does -/

/-- The register keeps eight bits of the number, and every field but the registers and the pc keeps its value. -/
theorem loadEffect_load (d v : Nat) (s : State) : LoadEffect s ((Effect.load d v).apply s) d (v % 256) := by
  refine ⟨fun n => ?_, readFlag_apply _ s, fun _ => rfl, apply_pc _ s, rfl, rfl, rfl, rfl, rfl, rfl, rfl, rfl, rfl⟩
  rw [readReg_apply, Effect.newReg]
  dsimp only
  rw [apply_ite BitVec.toNat, BitVec.toNat_ofNat]

/-- A byte is loaded whole. -/
theorem loadEffect_load_byte (d : Nat) (v : Byte) (s : State) :
    LoadEffect s ((Effect.load d v.toNat).apply s) d v.toNat := by
  have h := loadEffect_load d v.toNat s
  rwa [Nat.mod_eq_of_lt v.isLt] at h

/-- Settles O16: the register keeps the immediate modulo 256. -/
theorem ldiResultAndFrame : Obligations.LdiResultAndFrame := fun d imm s => ⟨_, exec_eq _ s, loadEffect_load d imm s⟩

/-- Settles O17: the byte loaded is the cell the direct address names. -/
theorem ldmResultAndFrame : Obligations.LdmResultAndFrame := fun d addr s =>
  ⟨_, exec_eq _ s, loadEffect_load_byte d (memRead s (directCell addr)) s⟩

/-- Settles O19: the byte loaded is read through the pointer of the state before the load, so `dest` may be the
pointer. -/
theorem ldpResultAndFrame : Obligations.LdpResultAndFrame := fun d p s =>
  ⟨_, exec_eq _ s, loadEffect_load_byte d (memRead s (pointerCell s p)) s⟩

/-! ### What a storing effect does -/

/-- The cell holds the source register, and every field but RAM and the pc keeps its value. -/
theorem storeEffect_store {s : State} (h : Memory.wf 32 s.ram = true) (src cell : Nat) :
    StoreEffect s ((Effect.store cell (regOperand s src)).apply s) cell (readReg s src) :=
  ⟨memRead_storeFrom h src cell, readReg_apply _ s, readFlag_apply _ s, apply_pc _ s, rfl,
    rfl, rfl, rfl, rfl, rfl, rfl, rfl, rfl⟩

/-- Settles O18: the cell stored to is the one the direct address names. -/
theorem stmResultAndFrame : Obligations.StmResultAndFrame := fun src addr s h =>
  ⟨rfl, _, exec_eq _ s, storeEffect_store h src (directCell addr)⟩

/-- Settles O20: the cell stored to is the one the pointer register names. -/
theorem stpResultAndFrame : Obligations.StpResultAndFrame := fun p src s h =>
  ⟨rfl, _, exec_eq _ s, storeEffect_store h src (pointerCell s p)⟩

end Sys2Proof.Proofs
end

section
/-! The control transfers and the idioms with the sentinel flags (O21, O22, O23, O58). -/

namespace Sys2Proof.Proofs

open Sys2Proof.Machine Sys2Proof.Claims

/-! ### Where a conditional branch leads -/

theorem branchTarget_of_flag {s : State} {c : Nat} (h : readFlag s c = true) (n : Nat) : branchTarget s c n = n :=
  if_pos h

theorem branchTarget_of_not_flag {s : State} {c : Nat} (h : readFlag s c = false) (n : Nat) :
    branchTarget s c n = s.pc.toNat + 1 := if_neg (Bool.eq_false_iff.mp h)

/-- A target within the ROM is kept whole; the index after the branch wraps at 64 (rule R26, decision D2). -/
theorem branchTarget_mod (s : State) (c n : Nat) :
    branchTarget s c (n % 64) % 64 = if readFlag s c = true then n % 64 else (s.pc.toNat + 1) % 64 := by
  rw [branchTarget, apply_ite (· % 64), Nat.mod_mod]

/-! ### What a jumping effect does -/

/-- The pc keeps six bits of the target, and every other field keeps its value. -/
theorem jumpEffect_jump (n : Nat) (s : State) : JumpEffect s ((Effect.jump n).apply s) (n % 64) :=
  ⟨apply_pc _ s, readReg_apply _ s, readFlag_apply _ s, fun _ => rfl, rfl, rfl, rfl, rfl, rfl, rfl, rfl, rfl, rfl⟩

theorem jumpEffect_branch (s : State) (c n : Nat) :
    JumpEffect s ((Effect.jump (branchTarget s c (n % 64))).apply s)
      (if readFlag s c = true then n % 64 else (s.pc.toNat + 1) % 64) :=
  branchTarget_mod s c n ▸ jumpEffect_jump (branchTarget s c (n % 64)) s

/-- Settles O21: the branch target is direct. -/
theorem brcTargetAndFrame : Obligations.BrcTargetAndFrame := fun c addr s =>
  ⟨_, exec_eq _ s, jumpEffect_branch s c addr⟩

/-- Settles O22: the branch target is the value of the pointer register. -/
theorem brpTargetAndFrame : Obligations.BrpTargetAndFrame := fun c p s =>
  ⟨_, exec_eq _ s, jumpEffect_branch s c (regOperand s p)⟩

theorem jumpEffect_jmp (addr : Nat) (s : State) : ∃ t, exec (.jmp addr) s = .next t ∧ JumpEffect s t (addr % 64) :=
  ⟨_, exec_eq _ s, Nat.mod_mod addr 64 ▸ jumpEffect_jump (directTarget addr) s⟩

/-- Settles O23: the target is six bits of the twelve-bit operand, which are the six lowest of the word. -/
theorem jmpTargetAndFrame : Obligations.JmpTargetAndFrame := by
  refine ⟨jumpEffect_jmp, fun l w s h => ?_⟩
  have hdecode : decodeWith l w = .jmp (w.toNat % 4096) := by
    rw [decodeWith, opcodeOf_of_number (op := .jmp) h, addr12_eq]
  have hlow : w.toNat % 4096 % 64 = w.toNat % 64 := Nat.mod_mod_of_dvd _ (by decide)
  rw [hdecode, ← hlow]
  exact ⟨rfl, jumpEffect_jmp (w.toNat % 4096) s⟩

/-! ### The sentinel flags as conditions -/

/-- Settles O58: the invariant keeps flag 14 false and flag 15 true, so the one is never and the other always taken. -/
theorem sentinelFlagIdioms : Obligations.SentinelFlagIdioms := by
  intro s hs addr p
  have hnever : branchTarget s 14 (directTarget addr) = s.pc.toNat + 1 := branchTarget_of_not_flag hs.never _
  have halways : ∀ n, branchTarget s 15 n = n := branchTarget_of_flag hs.always
  refine ⟨⟨_, exec_eq _ s, ?_, rfl⟩, ?_, _, exec_eq _ s, ?_, rfl⟩
  · rw [effect, hnever]
    exact apply_pc _ s
  · rw [exec_eq, exec_eq, effect, halways]
    rfl
  · rw [effect, halways, apply_pc]
    exact Nat.mod_mod (regOperand s p) 64

end Sys2Proof.Proofs
end

section
/-! The events as the host sees them: which of them complete, the mode they lead to, and what a snapshot shows (O39, O42,
O45, O46, O47, O59, O60). -/

namespace Sys2Proof.Proofs

open Sys2Proof.Machine Sys2Proof.Claims

/-! ### Cycles in the two run modes -/

/-- Settles O39: in a run mode the cycle's precondition holds, and there is no reason for a fault. -/
theorem cycleAlwaysCompletes : Obligations.CycleAlwaysCompletes :=
  ⟨fun cfg _ hm => ⟨_, cycle_eq_of_run cfg hm⟩, fun _ _ _ f => nomatch f⟩

/-- Settles O42: the two cycles start in states that differ in the mode only, and so lead to such states. -/
theorem cycleSameInBothRunModes : Obligations.CycleSameInBothRunModes := by
  refine ⟨fun i s => ⟨_, exec_eq i s⟩, fun cfg s => ?_⟩
  change cycle cfg (setMode s .automatic) = mapNext _ (cycle cfg (setMode s .manualStep))
  rw [cycle_eq_of_run cfg (s := setMode s .automatic) (by decide : Mode.automatic ≠ .setup),
    cycle_eq_of_run cfg (s := setMode s .manualStep) (by decide : Mode.manualStep ≠ .setup),
    afterCycle_setMode, afterCycle_setMode]
  split
  · rfl
  · rfl

/-! ### Which events complete -/

/-- The refusal of each event outside its precondition, by its own name (rules R124 and R238). -/
def RefusedAs (m : Mode) (e : HostEvent) (r : Refusal) : Prop :=
  (r = .cycleInSetup ∧ e = .cycle ∧ m = .setup) ∨
    (r = .loadOutsideSetup ∧ (∃ rom ram, e = .load rom ram) ∧ m ≠ .setup)

theorem perform_default_of_accepts {e : HostEvent} {s : State} (h : accepts s.mode e = true) :
    ∃ t, perform Config.default e s = .next t := by
  cases e with
  | cycle => exact ⟨_, cycle_eq_of_run _ (bne_iff_ne.mp h)⟩
  | load rom ram => exact ⟨_, (perform_load _ rom ram s).trans (if_pos (beq_iff_eq.mp h))⟩
  | fullReset | programReset | requestManualMode | requestAutomaticMode | requestStep => exact ⟨_, rfl⟩

theorem perform_default_of_not_accepts {e : HostEvent} {s : State} (h : accepts s.mode e = false) :
    ∃ r, perform Config.default e s = .refused r ∧ RefusedAs s.mode e r := by
  cases e with
  | cycle =>
    have hm : s.mode = .setup := bne_eq_false_iff_eq.mp h
    exact ⟨_, (perform_cycle _ s).trans (if_pos ⟨hm, rfl⟩), .inl ⟨rfl, rfl, hm⟩⟩
  | load rom ram =>
    have hm : s.mode ≠ .setup := beq_eq_false_iff_ne.mp h
    exact ⟨_, (perform_load _ rom ram s).trans (if_neg hm), .inr ⟨rfl, ⟨rom, ram, rfl⟩, hm⟩⟩
  | fullReset | programReset | requestManualMode | requestAutomaticMode | requestStep => cases h

/-- Settles O59: a step performs its next event in the mode it is in, and taking the event off the list keeps the
mode. -/
theorem stepCompletesExactlyForConformingHosts : Obligations.StepCompletesExactlyForConformingHosts := by
  intro s
  change ((∃ t, step s = .next t) ↔ conforming s = true) ∧ ∀ r, step s = .refused r → RefusedAs s.mode (nextEvent s) r
  cases h : conforming s with
  | true =>
    obtain ⟨t, ht⟩ : ∃ t, step s = .next t := perform_default_of_accepts (s := { s with pending := s.pending.tail }) h
    simp [ht]
  | false =>
    obtain ⟨r, hr, hnamed⟩ : ∃ r, step s = .refused r ∧ RefusedAs s.mode (nextEvent s) r :=
      perform_default_of_not_accepts (s := { s with pending := s.pending.tail }) h
    simp [hr, hnamed]

/-! ### The mode after an event -/

theorem afterCycle_mode (cfg : Config) (s : State) :
    (afterCycle cfg s).mode = if fetched cfg s = .halt then .setup else s.mode := by
  rw [afterCycle_frame]
  exact effect_newMode _ s s.mode

theorem loadSources_mode (rom ram : Option (List Char)) (s : State) : (loadSources rom ram s).mode = s.mode := by
  rw [loadSources_frame]

/-- The table of rule R235 refuses an event just where the event's precondition does not hold. -/
theorem nextMode_isSome (m : Mode) (e : HostEvent) (isHalt : Bool) : (nextMode m e isHalt).isSome = accepts m e := by
  cases e with
  | cycle => cases m <;> cases isHalt <;> rfl
  | load _ _ | fullReset | programReset | requestManualMode | requestAutomaticMode | requestStep => cases m <;> rfl

/-- In a run mode the table sends a cycle to Setup if it runs HALT, and else keeps the mode. -/
theorem nextMode_cycle {m : Mode} (hm : m ≠ .setup) (isHalt : Bool) :
    nextMode m .cycle isHalt = some (if isHalt then .setup else m) := by
  cases m with
  | setup => exact absurd rfl hm
  | manualStep | automatic => cases isHalt <;> rfl

/-- The table gives the mode that an accepted event leads to. -/
theorem nextMode_of_leads {e : HostEvent} {s t : State} (hl : Leads Config.default s e t) :
    nextMode s.mode e (decide (decode (romRead s s.pc.toNat) = .halt)) = some t.mode := by
  cases hl with
  | cycle h =>
    have hm : s.mode ≠ .setup := h.resolve_right (by decide)
    rw [afterCycle_mode, nextMode_cycle hm]
    simp only [decide_eq_true_eq]
    rfl
  | load rom ram hm => rw [loadSources_mode, hm, nextMode]
  | programReset | fullReset => rfl
  | requestStep | requestManualMode => cases s.mode <;> rfl
  | requestAutomaticMode =>
    rw [setMode_mode]
    cases s.mode <;> rfl

/-- Settles O45: where the table has a mode the event is accepted and leads to it, and elsewhere it is refused. -/
theorem modeTransitionTable : Obligations.ModeTransitionTable := by
  intro s e
  have haccepts := nextMode_isSome s.mode e (decide (decode (romRead s s.pc.toNat) = .halt))
  split
  next m hm =>
    rw [hm] at haccepts
    obtain ⟨t, ht⟩ := perform_default_of_accepts haccepts.symm
    exact ⟨t, ht, Option.some.inj ((nextMode_of_leads (leads_of_perform ht)).symm.trans hm)⟩
  next hm =>
    rw [hm] at haccepts
    obtain ⟨r, hr, -⟩ := perform_default_of_not_accepts haccepts.symm
    exact ⟨r, hr⟩

/-- Settles O46, from the mode each accepted event leads to. -/
theorem setupOnlyByHaltOrReset : Obligations.SetupOnlyByHaltOrReset := by
  intro cfg e s t hm hp ht
  cases leads_of_perform hp with
  | programReset => exact .inl rfl
  | fullReset => exact .inr (.inl rfl)
  | cycle _ =>
    have hi : fetched cfg s = .halt := by
      by_contra hi
      rw [afterCycle_mode, if_neg hi] at ht
      exact hm ht
    exact .inr (.inr ⟨rfl, hi⟩)
  | load _ _ h => exact absurd h hm
  | requestStep | requestManualMode => cases ht
  | requestAutomaticMode =>
    rw [setMode_mode, if_neg hm] at ht
    exact absurd ht hm

/-- Settles O47: each command is one write of the mode. -/
theorem modeCommandsChangeTheModeOnly : Obligations.ModeCommandsChangeTheModeOnly := by
  intro cfg s
  refine ⟨perform_requestStep cfg s, perform_requestManualMode cfg s, ?_⟩
  have hmode : (if s.mode = .setup then Mode.automatic else s.mode) =
      if s.mode = .manualStep then .manualStep else .automatic := by
    cases s.mode <;> rfl
  rw [perform_requestAutomaticMode, hmode]
  rfl

/-! ### What a snapshot shows -/

theorem romRead_of_snapshot {s t : State} (h : snapshot s = snapshot t) {n : Nat} (hn : n < 64) :
    romRead s n = romRead t n := by
  simpa [snapshot] using congrArg (fun p : Snapshot => p.rom[n]) h

theorem memRead_of_snapshot {s t : State} (h : snapshot s = snapshot t) {n : Nat} (hn : n < 32) :
    memRead s n = memRead t n := by
  simpa [snapshot] using congrArg (fun p : Snapshot => p.ram[n]) h

/-- Settles O60: the snapshot shows every cell of the two memories, which in canonical form are then equal, and the
other fields as they are. -/
theorem snapshotDeterminesTheState : Obligations.SnapshotDeterminesTheState := by
  intro s t hs ht h hpending hfreeIdx
  have hrom : s.rom = t.rom := memory_ext hs.romWf ht.romWf fun n hn => by
    simpa only [romRead, Nat.mod_eq_of_lt hn] using romRead_of_snapshot h hn
  have hram : s.ram = t.ram := memory_ext hs.ramWf ht.ramWf fun n hn => by
    simpa only [memRead, Nat.mod_eq_of_lt hn] using memRead_of_snapshot h hn
  exact State.ext hrom hram (congrArg Snapshot.x h) (congrArg Snapshot.inPort h) (congrArg Snapshot.outPort h)
    (congrArg Snapshot.flag h) (congrArg Snapshot.pc h) (congrArg Snapshot.mode h) (congrArg Snapshot.trace h)
    (congrArg Snapshot.icount h) (congrArg Snapshot.last h) hpending hfreeIdx

end Sys2Proof.Proofs
end

section
/-! The resets: what `program_reset` clears and keeps, `full_reset` beside it, and a second reset (O48, O49, O50). -/

namespace Sys2Proof.Proofs

open Sys2Proof.Machine Sys2Proof.Claims

/-- A push moves every entry but the oldest one place towards the oldest (rule R42). -/
theorem pushEntry_get_older (t : Vector TraceEntry 7) (e : TraceEntry) {k : Nat} (h : k < 6) :
    (pushEntry t e)[k] = t[k + 1] :=
  (pushEntry_get t e k (by omega)).trans (dif_pos (by omega))

/-- Settles O48: the stores hold their reset values, and the log is the old one after one push. -/
theorem programResetEffect : Obligations.ProgramResetEffect := by
  intro cfg s
  have hflag : ∀ k, k < 16 → (readFlag (programReset s) k = true ↔ k = 15) := fun _ => readFlag_of_resetFlags rfl
  exact ⟨_, rfl, fun _ => memory_read_nil _, readReg_of_zero rfl, readIn_of_zero rfl, readOut_of_zero rfl,
    fun k hk => Bool.eq_false_iff.mpr fun h => absurd ((hflag k (by omega)).mp h) (by omega),
    (hflag 15 (by decide)).mpr rfl, rfl, rfl, rfl, rfl, fun _ => pushEntry_get_older _ _, rfl, rfl, rfl, rfl⟩

theorem decodeWith_zero (l : TwoNibbleLayout) : decodeWith l 0 = .halt := rfl

/-- Settles O49: `full_reset` is `program_reset` from the state with ROM emptied, and an empty memory reads 0. -/
theorem fullResetEffect : Obligations.FullResetEffect := by
  intro cfg s
  have hzero : ∀ n, romRead (fullReset s) n = 0 := fun _ => memory_read_nil _
  exact ⟨_, _, rfl, rfl, fun n => ⟨hzero n, hzero n ▸ decodeWith_zero _⟩, rfl⟩

/-- Settles O50: the second reset finds every field but the log at its reset value, the counter at 0. -/
theorem resetTwiceIsResetOnce : Obligations.ResetTwiceIsResetOnce := fun _ _ =>
  ⟨_, _, rfl, rfl, rfl, rfl, fun _ => pushEntry_get_older _ _⟩

end Sys2Proof.Proofs
end

section
/-! Program loading: which stores a `load` reaches, where it stops in a source with a malformed line, and that the text of
an image puts the image in place (O52 to O55). -/

namespace Sys2Proof.Proofs

open Sys2Proof.Machine Sys2Proof.Claims

/-! ### The stores after a load -/

theorem perform_load_of_setup (cfg : Config) (rom ram : Option (List Char)) {s : State} (h : s.mode = .setup) :
    perform cfg (.load rom ram) s = .next (loadSources rom ram s) :=
  (perform_load cfg rom ram s).trans (if_pos h)

theorem loadSources_rom (rom ram : Option (List Char)) (s : State) :
    (loadSources rom ram s).rom = (loadRom rom s).rom := by
  rw [loadSources_frame]

theorem loadRom_ram (src : Option (List Char)) (s : State) : (loadRom src s).ram = s.ram := by
  rw [loadRom_frame]

/-- The RAM after a RAM source depends on the state's RAM only. -/
theorem loadRam_ram_congr (src : Option (List Char)) {s t : State} (h : s.ram = t.ram) :
    (loadRam src s).ram = (loadRam src t).ram := by
  cases src with
  | none => exact h
  | some text =>
    rw [loadRam_ram, loadRam_ram]
    exact (loadLines_related (R := fun s t => s.ram = t.ram)
      (fun i v h => congrArg (Memory.write · (i % 32) (BitVec.ofNat 8 v)) h) 8 0 (splitLines text) h).1

/-- The ROM source is processed first, but the RAM source finds RAM as it was (rule R285, decision D23). -/
theorem loadSources_ram (rom ram : Option (List Char)) (s : State) :
    (loadSources rom ram s).ram = (loadRam ram s).ram :=
  loadRam_ram_congr ram (loadRom_ram rom (pushLoadReports s))

/-- Settles O52: the frame of a `load`, in which a missing source leaves its own store. -/
theorem loadChangesTheStoresOnly : Obligations.LoadChangesTheStoresOnly := by
  refine ⟨fun cfg rom ram s hm => ⟨_, perform_load_of_setup cfg rom ram hm, ?_, ?_, ?_⟩,
    fun cfg rom ram s hm => (perform_load cfg rom ram s).trans (if_neg hm)⟩
  · rw [loadSources_frame]
  · rintro rfl
    exact loadSources_rom none ram s
  · rintro rfl
    exact loadSources_ram rom none s

/-! ### Lines of a joined text -/

theorem joinLines_cons (l : List Char) {ls : List (List Char)} (h : ls ≠ []) :
    joinLines (l :: ls) = l ++ '\n' :: joinLines ls := by
  cases ls with
  | nil => exact absurd rfl h
  | cons l' ls => simp [joinLines, List.intercalate]

/-- Lines without a line feed are split off one by one, whatever stands after them. -/
theorem splitLines_joinLines_append {before : List (List Char)} (hb : ∀ l ∈ before, '\n' ∉ l) {bad : List Char}
    (hbad : '\n' ∉ bad) (after : List (List Char)) :
    ∃ rest, splitLines (joinLines (before ++ bad :: after)) = before ++ bad :: rest := by
  induction before with
  | nil =>
    cases after with
    | nil => exact ⟨[], splitLines_intercalate (List.cons_ne_nil _ _) (by simpa using hbad)⟩
    | cons l ls =>
      rw [List.nil_append, joinLines_cons bad (List.cons_ne_nil l ls), splitLines_append hbad]
      exact ⟨_, rfl⟩
  | cons b bs ih =>
    rw [List.forall_mem_cons] at hb
    obtain ⟨rest, hrest⟩ := ih hb.2
    refine ⟨rest, ?_⟩
    rw [List.cons_append, joinLines_cons b (by simp), splitLines_append hb.1, hrest, List.cons_append]

/-- Processing a joined text is processing its lines; the empty text, which joins no lines, is one line to skip. -/
theorem loadLines_joinLines {len : Nat} (hlen : 0 < len) (write : State → Nat → Nat → State) {lines : List (List Char)}
    (h : ∀ l ∈ lines, '\n' ∉ l) (s : State) :
    loadLines len write 0 (splitLines (joinLines lines)) s = loadLines len write 0 lines s := by
  cases lines with
  | nil =>
    change loadLines len write 0 [[]] s = (s, true)
    rw [loadLines, classify_empty hlen]
    rfl
  | cons l ls => rw [joinLines, splitLines_intercalate (List.cons_ne_nil l ls) h]

/-! ### Where a malformed line stops a source -/

section
variable {len : Nat} (write : State → Nat → Nat → State) {before : List (List Char)} (hclean : CleanLines len before)
include hclean

theorem classify_ne_malformed_of_clean : ∀ l ∈ before, classify len l ≠ .malformed :=
  fun l hl hc => (hclean l hl).2 (classify_malformed.mp hc)

/-- Clean lines are all processed. -/
theorem loadLines_clean (hlen : 0 < len) (s : State) :
    loadLines len write 0 (splitLines (joinLines before)) s = ((loadLines len write 0 before s).1, true) := by
  rw [loadLines_joinLines hlen write fun l hl => (hclean l hl).1]
  exact Prod.ext rfl (loadLines_completes len write (classify_ne_malformed_of_clean hclean) 0 s)

/-- A malformed line after clean ones stops the processing, with what the clean lines wrote. -/
theorem loadLines_malformed {bad : List Char} (hlf : '\n' ∉ bad) (hbad : MalformedLine len bad)
    (after : List (List Char)) (s : State) :
    loadLines len write 0 (splitLines (joinLines (before ++ bad :: after))) s =
      ((loadLines len write 0 before s).1, false) := by
  obtain ⟨rest, hsplit⟩ := splitLines_joinLines_append (fun l hl => (hclean l hl).1) hlf after
  rw [hsplit, loadLines_append len write (classify_ne_malformed_of_clean hclean), loadLines, classify_malformed.mpr hbad]

end

theorem loadRom_malformed {before after : List (List Char)} {bad : List Char} (hclean : CleanLines 16 before)
    (hlf : '\n' ∉ bad) (hbad : MalformedLine 16 bad) (s : State) :
    loadRom (some (joinLines (before ++ bad :: after))) s =
      pushTrace (loadLines 16 romWrite 0 before s).1 .romCorrupt := by
  rw [loadRom_some, loadLines_malformed romWrite hclean hlf hbad]
  rfl

theorem loadRom_clean {before : List (List Char)} (hclean : CleanLines 16 before) (s : State) :
    loadRom (some (joinLines before)) s = pushTrace (loadLines 16 romWrite 0 before s).1 .romLoaded := by
  rw [loadRom_some, loadLines_clean romWrite hclean (by decide)]
  rfl

theorem loadRam_malformed {before after : List (List Char)} {bad : List Char} (hclean : CleanLines 8 before)
    (hlf : '\n' ∉ bad) (hbad : MalformedLine 8 bad) (s : State) :
    loadRam (some (joinLines (before ++ bad :: after))) s =
      pushTrace (loadLines 8 memWrite 0 before s).1 .ramCorrupt := by
  rw [loadRam_some, loadLines_malformed memWrite hclean hlf hbad]
  rfl

theorem loadRam_clean {before : List (List Char)} (hclean : CleanLines 8 before) (s : State) :
    loadRam (some (joinLines before)) s = (loadLines 8 memWrite 0 before s).1 := by
  rw [loadRam_some, loadLines_clean memWrite hclean (by decide)]
  rfl

/-- A state with another log is the first state but for the log. -/
theorem eq_with_trace {s t : State} (h : ∃ tr, t = withTrace tr s) : t = { s with trace := t.trace } := by
  obtain ⟨tr, rfl⟩ := h
  rfl

/-- Settles O54: both texts lead to the same state but for the log before the RAM source, which keeps that relation. -/
theorem malformedRomLineStopsTheSource : Obligations.MalformedRomLineStopsTheSource := by
  refine ⟨fun cfg before after bad ram s hclean hlf hbad hm => ⟨⟨_, _, perform_load_of_setup cfg _ _ hm,
    perform_load_of_setup cfg _ _ hm, eq_with_trace ?_, ?_⟩, ?_⟩,
    fun cfg s hm => ⟨_, perform_load_of_setup cfg _ _ hm, rfl⟩, fun _ => rfl⟩
  · rw [loadSources, loadSources, loadRom_malformed hclean hlf hbad, loadRom_clean hclean]
    have hR := loadStable_withTrace
    exact hR.pushLoadReports (hR.loadRam ram (hR.pushLoadReports ⟨_, rfl⟩))
  · rintro rfl
    rw [loadSources_frame, loadSources_ram]
    rfl
  · rw [loadRom_malformed hclean hlf hbad]
    rfl

/-- Settles O55: after the same ROM source, the two RAM texts lead to the same state but for the log. -/
theorem malformedRamLineStopsTheSource : Obligations.MalformedRamLineStopsTheSource := by
  intro cfg before after bad rom s hclean hlf hbad hm
  refine ⟨_, _, perform_load_of_setup cfg _ _ hm, perform_load_of_setup cfg _ _ hm, eq_with_trace ?_⟩
  rw [loadSources, loadSources, loadRam_malformed hclean hlf hbad, loadRam_clean hclean]
  exact loadStable_withTrace.pushLoadReports ⟨_, rfl⟩

/-! ### The text of an image -/

/-- The line of an image's text for one cell: its digits, or nothing where the image gives no cell. -/
def imageLine {w : Nat} : Option (BitVec w) → List Char
  | some v => renderCell v
  | none => []

theorem renderImage_eq {w : Nat} (img : List (Option (BitVec w))) : renderImage img = joinLines (img.map imageLine) :=
  rfl

theorem lineFeed_notMem_imageLine {w : Nat} (c : Option (BitVec w)) : '\n' ∉ imageLine c := by
  cases c with
  | none => exact List.not_mem_nil
  | some v =>
    rw [imageLine, renderCell, List.mem_map]
    rintro ⟨k, -, h⟩
    split at h <;> exact absurd h (by decide)

/-- A line of an image's text is a valid line with the cell's value, or is skipped. -/
theorem classify_imageLine {w : Nat} (hw : 0 < w) (c : Option (BitVec w)) :
    classify w (imageLine c) = c.elim .skipped fun v => .valid v.toNat := by
  cases c with
  | none => exact classify_empty hw
  | some v => exact (classify_digits v.toNat w).trans (congrArg Line.valid (Nat.mod_eq_of_lt v.isLt))

/-- A store of `size` cells of `w` bits: what reads see of a write, in the states with `P`, which writes keep. -/
structure CellStore {w : Nat} (size : Nat) (write : State → Nat → Nat → State) (read : State → Nat → BitVec w)
    (P : State → Prop) : Prop where
  keeps : ∀ s i v, P s → P (write s i v)
  read_write : ∀ {s}, P s → ∀ i v n, read (write s i v) n = if n % size = i % size then BitVec.ofNat w v else read s n

theorem cellStore_rom : CellStore 64 romWrite romRead fun s => Memory.wf 64 s.rom = true where
  keeps _ i v h := romWrite_wf h i v
  read_write h := romRead_romWrite h

theorem cellStore_ram : CellStore 32 memWrite memRead fun s => Memory.wf 32 s.ram = true where
  keeps _ i v h := memWrite_wf h i v
  read_write h := memRead_memWrite h

theorem getElem?_join_append_singleton {α : Type} (cs : List (Option α)) (c : Option α) (n : Nat) :
    ((cs ++ [c])[n]?).join = if n = cs.length then c else (cs[n]?).join := by
  rcases Nat.lt_trichotomy n cs.length with hlt | rfl | hgt
  · rw [List.getElem?_append_left hlt, if_neg (by omega)]
  · rw [List.getElem?_concat_length, if_pos rfl, Option.join_some]
  · rw [List.getElem?_eq_none (by simpa using hgt), List.getElem?_eq_none (by omega), if_neg (by omega)]

/-- The lines of an image write each given cell at its index. By induction on the image from its last line, which is
written over what the lines before it leave. -/
theorem read_loadLines_image {w size : Nat} {write : State → Nat → Nat → State} {read : State → Nat → BitVec w}
    {P : State → Prop} (hS : CellStore size write read P) (hw : 0 < w) {img : List (Option (BitVec w))}
    (hlen : img.length ≤ size) {s : State} (hs : P s) {n : Nat} (hn : n < size) :
    read (loadLines w write 0 (img.map imageLine) s).1 n = ((img[n]?).join).getD (read s n) := by
  induction img using List.reverseRecOn with
  | nil => rfl
  | append_singleton cs c ih =>
    rw [List.length_append, List.length_singleton] at hlen
    have hlines : ∀ l ∈ cs.map imageLine, classify w l ≠ .malformed := by
      intro l hl
      obtain ⟨d, -, rfl⟩ := List.mem_map.mp hl
      rw [classify_imageLine hw]
      cases d <;> exact nofun
    have hP := loadLines_keeps w write P hS.keeps 0 (cs.map imageLine) s hs
    rw [List.map_append, loadLines_append w write hlines, List.length_map, List.map_singleton, loadLines,
      classify_imageLine hw, getElem?_join_append_singleton]
    cases c with
    | none =>
      refine (ih (by omega)).trans ?_
      split
      next h => rw [h, List.getElem?_eq_none (le_refl _), Option.join_none]
      next => rfl
    | some v =>
      refine (hS.read_write hP _ _ n).trans ?_
      rw [ih (by omega), Nat.zero_add, Nat.mod_eq_of_lt hn, Nat.mod_eq_of_lt hlen, BitVec.ofNat_toNat, BitVec.setWidth_eq]
      exact (apply_ite (Option.getD · (read s n)) (n = cs.length) (some v) _).symm

theorem romRead_of_rom_eq {s t : State} (h : t.rom = s.rom) (n : Nat) : romRead t n = romRead s n := by
  rw [romRead, romRead, h]

theorem loadLines_renderImage {w : Nat} (hw : 0 < w) (write : State → Nat → Nat → State)
    (img : List (Option (BitVec w))) (s : State) :
    loadLines w write 0 (splitLines (renderImage img)) s = loadLines w write 0 (img.map imageLine) s := by
  rw [renderImage_eq, loadLines_joinLines hw]
  intro l hl
  obtain ⟨c, -, rfl⟩ := List.mem_map.mp hl
  exact lineFeed_notMem_imageLine c

/-- Settles O53: each store after the `load` is the one the image's lines leave. -/
theorem loadedTextIsTheImage : Obligations.LoadedTextIsTheImage := by
  intro cfg romImg ramImg s hrom hram hm hromWf hramWf
  refine ⟨_, perform_load_of_setup cfg _ _ hm, fun n hn => ?_, fun n hn => ?_⟩
  · have h := (loadSources_rom (some (renderImage romImg)) (some (renderImage ramImg)) s).trans (loadRom_rom _ s)
    rw [romRead_of_rom_eq h, loadLines_renderImage (by decide)]
    exact read_loadLines_image cellStore_rom (by decide) hrom hromWf hn
  · have h := (loadSources_ram (some (renderImage romImg)) (some (renderImage ramImg)) s).trans (loadRam_ram _ s)
    rw [sameRam_of_ram_eq h, loadLines_renderImage (by decide)]
    exact read_loadLines_image cellStore_ram (by decide) hram hramWf hn

end Sys2Proof.Proofs
end
